-- ==== Sys2Proof/Word.lean ====
section
/-! DEFINITION. The words of the machine: their widths, from 00_scope.md R6, R8 and 30_encoding.md R91. Every quantity is
unsigned, so each is a bit vector whose arithmetic wraps at its width (00_scope.md R8, R9). -/

namespace Sys2Proof

/-- A memory cell, a general register, a timer, the immediate `kk`: 8 bits (00_scope.md R6). -/
abbrev Byte := BitVec 8

/-- I, PC, a stack entry, an instruction word: 16 bits (00_scope.md R6). -/
abbrev Word := BitVec 16

/-- A register index x or y, the sprite height n, a key number, WAITREG: 4 bits (30_encoding.md R91, 10_state.md R34). -/
abbrev Nibble := BitVec 4

/-- The address immediate `nnn`: 12 bits (30_encoding.md R91). -/
abbrev Addr12 := BitVec 12

/-- Zero extension of an address immediate where it is written to PC or I (30_encoding.md R93). -/
abbrev Addr12.toWord (nnn : Addr12) : Word := nnn.setWidth 16

/-- Zero extension of a byte to a word. -/
abbrev Byte.toWord (b : Byte) : Word := b.setWidth 16

end Sys2Proof
end

