-- ==== Sys2Proof/Syntax.lean ====
section
/-! DEFINITION. The 34 instructions of 30_encoding.md R96, one constructor per row of spec/opcode_table.json. The operands are
the fields of R91 at their own widths, so that every term is an instruction the encoding can express (R94). -/

namespace Sys2Proof

/-- The instructions, in the order of the table of 30_encoding.md R96. -/
inductive Instr where
  /-- `00E0` -/
  | cls
  /-- `00EE` -/
  | ret
  /-- `1nnn` -/
  | jp (nnn : Addr12)
  /-- `2nnn` -/
  | call (nnn : Addr12)
  /-- `3xkk` -/
  | seVxKk (x : Nibble) (kk : Byte)
  /-- `4xkk` -/
  | sneVxKk (x : Nibble) (kk : Byte)
  /-- `5xy0` -/
  | seVxVy (x y : Nibble)
  /-- `6xkk` -/
  | ldVxKk (x : Nibble) (kk : Byte)
  /-- `7xkk` -/
  | addVxKk (x : Nibble) (kk : Byte)
  /-- `8xy0` -/
  | ldVxVy (x y : Nibble)
  /-- `8xy1` -/
  | or (x y : Nibble)
  /-- `8xy2` -/
  | and (x y : Nibble)
  /-- `8xy3` -/
  | xor (x y : Nibble)
  /-- `8xy4` -/
  | addVxVy (x y : Nibble)
  /-- `8xy5` -/
  | sub (x y : Nibble)
  /-- `8xy6`; y is encoded and its register is not read (30_encoding.md R94) -/
  | shr (x y : Nibble)
  /-- `8xy7` -/
  | subn (x y : Nibble)
  /-- `8xyE`; y is encoded and its register is not read (30_encoding.md R94) -/
  | shl (x y : Nibble)
  /-- `9xy0` -/
  | sneVxVy (x y : Nibble)
  /-- `Annn` -/
  | ldINnn (nnn : Addr12)
  /-- `Bnnn` -/
  | jpV0 (nnn : Addr12)
  /-- `Cxkk` -/
  | rnd (x : Nibble) (kk : Byte)
  /-- `Dxyn` -/
  | drw (x y n : Nibble)
  /-- `Ex9E` -/
  | skp (x : Nibble)
  /-- `ExA1` -/
  | sknp (x : Nibble)
  /-- `Fx07` -/
  | ldVxDt (x : Nibble)
  /-- `Fx0A` -/
  | ldVxK (x : Nibble)
  /-- `Fx15` -/
  | ldDtVx (x : Nibble)
  /-- `Fx18` -/
  | ldStVx (x : Nibble)
  /-- `Fx1E` -/
  | addIVx (x : Nibble)
  /-- `Fx29` -/
  | ldFVx (x : Nibble)
  /-- `Fx33` -/
  | ldBVx (x : Nibble)
  /-- `Fx55` -/
  | ldMemVx (x : Nibble)
  /-- `Fx65` -/
  | ldVxMem (x : Nibble)
  deriving DecidableEq, Repr

end Sys2Proof
end

