-- ==== Sys2Proof/Decode.lean ====
section
/-! DEFINITION. The decoder of 30_encoding.md R99, total on any bytes and rejecting by name; the opcode table of R96 as data; the
encoder of R91 and R92. -/

namespace Sys2Proof

/-- Why bytes are no instruction. -/
inductive Reject where
  /-- Fewer than the two bytes of an instruction word (30_encoding.md R90). No step of the machine meets it: a fetch always has
  two bytes (20_memory.md R66). -/
  | truncated
  /-- A word that matches no row of 30_encoding.md R96; the machine logs it and goes on (R97,
  40_cycle_and_control_flow.md R132). -/
  | unrecognised (op : Word)
  deriving DecidableEq, Repr

/-- The family, op[15:12] (30_encoding.md R91). -/
def opFamily (op : Word) : Nibble := op.extractLsb' 12 4
/-- The field x, op[11:8] (30_encoding.md R91). -/
def opX (op : Word) : Nibble := op.extractLsb' 8 4
/-- The field y, op[7:4] (30_encoding.md R91). -/
def opY (op : Word) : Nibble := op.extractLsb' 4 4
/-- The field n, op[3:0] (30_encoding.md R91). -/
def opN (op : Word) : Nibble := op.extractLsb' 0 4
/-- The field kk, op[7:0] (30_encoding.md R91). -/
def opKk (op : Word) : Byte := op.extractLsb' 0 8
/-- The field nnn, op[11:0] (30_encoding.md R91). -/
def opNnn (op : Word) : Addr12 := op.extractLsb' 0 12

/-- The decoder, 30_encoding.md R99: a function of the 16-bit word alone. -/
def decodeWord (op : Word) : Except Reject Instr :=
  match (opFamily op).toNat with
  | 0x0 =>
    if op = 0x00E0#16 then .ok .cls
    else if op = 0x00EE#16 then .ok .ret
    else .error (.unrecognised op)
  | 0x1 => .ok (.jp (opNnn op))
  | 0x2 => .ok (.call (opNnn op))
  | 0x3 => .ok (.seVxKk (opX op) (opKk op))
  | 0x4 => .ok (.sneVxKk (opX op) (opKk op))
  | 0x5 => if opN op = 0 then .ok (.seVxVy (opX op) (opY op)) else .error (.unrecognised op)
  | 0x6 => .ok (.ldVxKk (opX op) (opKk op))
  | 0x7 => .ok (.addVxKk (opX op) (opKk op))
  | 0x8 =>
    match (opN op).toNat with
    | 0x0 => .ok (.ldVxVy (opX op) (opY op))
    | 0x1 => .ok (.or (opX op) (opY op))
    | 0x2 => .ok (.and (opX op) (opY op))
    | 0x3 => .ok (.xor (opX op) (opY op))
    | 0x4 => .ok (.addVxVy (opX op) (opY op))
    | 0x5 => .ok (.sub (opX op) (opY op))
    | 0x6 => .ok (.shr (opX op) (opY op))
    | 0x7 => .ok (.subn (opX op) (opY op))
    | 0xE => .ok (.shl (opX op) (opY op))
    | _ => .error (.unrecognised op)
  | 0x9 => if opN op = 0 then .ok (.sneVxVy (opX op) (opY op)) else .error (.unrecognised op)
  | 0xA => .ok (.ldINnn (opNnn op))
  | 0xB => .ok (.jpV0 (opNnn op))
  | 0xC => .ok (.rnd (opX op) (opKk op))
  | 0xD => .ok (.drw (opX op) (opY op) (opN op))
  | 0xE =>
    match (opKk op).toNat with
    | 0x9E => .ok (.skp (opX op))
    | 0xA1 => .ok (.sknp (opX op))
    | _ => .error (.unrecognised op)
  | _ =>
    match (opKk op).toNat with
    | 0x07 => .ok (.ldVxDt (opX op))
    | 0x0A => .ok (.ldVxK (opX op))
    | 0x15 => .ok (.ldDtVx (opX op))
    | 0x18 => .ok (.ldStVx (opX op))
    | 0x1E => .ok (.addIVx (opX op))
    | 0x29 => .ok (.ldFVx (opX op))
    | 0x33 => .ok (.ldBVx (opX op))
    | 0x55 => .ok (.ldMemVx (opX op))
    | 0x65 => .ok (.ldVxMem (opX op))
    | _ => .error (.unrecognised op)

/-- The word of two consecutive bytes, big-endian: the byte at the lower address is bits 15 to 8 (20_memory.md R65). -/
def wordOfBytes (hi lo : Byte) : Word := hi ++ lo

/-- The byte at the lower address (20_memory.md R65). -/
def wordHi (op : Word) : Byte := op.extractLsb' 8 8

/-- The byte at the higher address (20_memory.md R65). -/
def wordLo (op : Word) : Byte := op.extractLsb' 0 8

/-- The decoder on bytes: one instruction and the bytes after it. -/
def decodeBytes : List Byte → Except Reject (Instr × List Byte)
  | hi :: lo :: rest =>
    match decodeWord (wordOfBytes hi lo) with
    | .ok i => .ok (i, rest)
    | .error r => .error r
  | _ => .error .truncated

/-- The encoder, from the formats of 30_encoding.md R92 and the selectors of R96. -/
def encode : Instr → Word
  | .cls => 0x00E0#16
  | .ret => 0x00EE#16
  | .jp nnn => 0x1#4 ++ nnn
  | .call nnn => 0x2#4 ++ nnn
  | .seVxKk x kk => 0x3#4 ++ x ++ kk
  | .sneVxKk x kk => 0x4#4 ++ x ++ kk
  | .seVxVy x y => 0x5#4 ++ x ++ y ++ 0x0#4
  | .ldVxKk x kk => 0x6#4 ++ x ++ kk
  | .addVxKk x kk => 0x7#4 ++ x ++ kk
  | .ldVxVy x y => 0x8#4 ++ x ++ y ++ 0x0#4
  | .or x y => 0x8#4 ++ x ++ y ++ 0x1#4
  | .and x y => 0x8#4 ++ x ++ y ++ 0x2#4
  | .xor x y => 0x8#4 ++ x ++ y ++ 0x3#4
  | .addVxVy x y => 0x8#4 ++ x ++ y ++ 0x4#4
  | .sub x y => 0x8#4 ++ x ++ y ++ 0x5#4
  | .shr x y => 0x8#4 ++ x ++ y ++ 0x6#4
  | .subn x y => 0x8#4 ++ x ++ y ++ 0x7#4
  | .shl x y => 0x8#4 ++ x ++ y ++ 0xE#4
  | .sneVxVy x y => 0x9#4 ++ x ++ y ++ 0x0#4
  | .ldINnn nnn => 0xA#4 ++ nnn
  | .jpV0 nnn => 0xB#4 ++ nnn
  | .rnd x kk => 0xC#4 ++ x ++ kk
  | .drw x y n => 0xD#4 ++ x ++ y ++ n
  | .skp x => 0xE#4 ++ x ++ 0x9E#8
  | .sknp x => 0xE#4 ++ x ++ 0xA1#8
  | .ldVxDt x => 0xF#4 ++ x ++ 0x07#8
  | .ldVxK x => 0xF#4 ++ x ++ 0x0A#8
  | .ldDtVx x => 0xF#4 ++ x ++ 0x15#8
  | .ldStVx x => 0xF#4 ++ x ++ 0x18#8
  | .addIVx x => 0xF#4 ++ x ++ 0x1E#8
  | .ldFVx x => 0xF#4 ++ x ++ 0x29#8
  | .ldBVx x => 0xF#4 ++ x ++ 0x33#8
  | .ldMemVx x => 0xF#4 ++ x ++ 0x55#8
  | .ldVxMem x => 0xF#4 ++ x ++ 0x65#8

/-- The two bytes of an instruction as they lie in memory, lower address first (20_memory.md R65). -/
def encodeBytes (i : Instr) : List Byte := [wordHi (encode i), wordLo (encode i)]

/-- The mnemonic of an instruction, as 30_encoding.md R96 labels it. -/
def Instr.mnemonic : Instr → String
  | .cls => "CLS"
  | .ret => "RET"
  | .jp _ => "JP"
  | .call _ => "CALL"
  | .seVxKk _ _ => "SE_VX_KK"
  | .sneVxKk _ _ => "SNE_VX_KK"
  | .seVxVy _ _ => "SE_VX_VY"
  | .ldVxKk _ _ => "LD_VX_KK"
  | .addVxKk _ _ => "ADD_VX_KK"
  | .ldVxVy _ _ => "LD_VX_VY"
  | .or _ _ => "OR"
  | .and _ _ => "AND"
  | .xor _ _ => "XOR"
  | .addVxVy _ _ => "ADD_VX_VY"
  | .sub _ _ => "SUB"
  | .shr _ _ => "SHR"
  | .subn _ _ => "SUBN"
  | .shl _ _ => "SHL"
  | .sneVxVy _ _ => "SNE_VX_VY"
  | .ldINnn _ => "LD_I_NNN"
  | .jpV0 _ => "JP_V0"
  | .rnd _ _ => "RND"
  | .drw _ _ _ => "DRW"
  | .skp _ => "SKP"
  | .sknp _ => "SKNP"
  | .ldVxDt _ => "LD_VX_DT"
  | .ldVxK _ => "LD_VX_K"
  | .ldDtVx _ => "LD_DT_VX"
  | .ldStVx _ => "LD_ST_VX"
  | .addIVx _ => "ADD_I_VX"
  | .ldFVx _ => "LD_F_VX"
  | .ldBVx _ => "LD_B_VX"
  | .ldMemVx _ => "LD_MEM_VX"
  | .ldVxMem _ => "LD_VX_MEM"

/-- One row of the table of 30_encoding.md R96: the mnemonic, the match and the mask. -/
structure OpcodeRow where
  mnemonic : String
  pattern : Word
  mask : Word
  deriving DecidableEq, Repr

/-- The 34 rows of 30_encoding.md R96, as data. The decoder does not read it; that the two agree is a statement about them. -/
def opcodeTable : List OpcodeRow :=
  [⟨"CLS", 0x00E0, 0xFFFF⟩, ⟨"RET", 0x00EE, 0xFFFF⟩, ⟨"JP", 0x1000, 0xF000⟩, ⟨"CALL", 0x2000, 0xF000⟩,
   ⟨"SE_VX_KK", 0x3000, 0xF000⟩, ⟨"SNE_VX_KK", 0x4000, 0xF000⟩, ⟨"SE_VX_VY", 0x5000, 0xF00F⟩,
   ⟨"LD_VX_KK", 0x6000, 0xF000⟩, ⟨"ADD_VX_KK", 0x7000, 0xF000⟩] ++
  [⟨"LD_VX_VY", 0x8000, 0xF00F⟩, ⟨"OR", 0x8001, 0xF00F⟩, ⟨"AND", 0x8002, 0xF00F⟩, ⟨"XOR", 0x8003, 0xF00F⟩,
   ⟨"ADD_VX_VY", 0x8004, 0xF00F⟩, ⟨"SUB", 0x8005, 0xF00F⟩, ⟨"SHR", 0x8006, 0xF00F⟩, ⟨"SUBN", 0x8007, 0xF00F⟩,
   ⟨"SHL", 0x800E, 0xF00F⟩, ⟨"SNE_VX_VY", 0x9000, 0xF00F⟩] ++
  [⟨"LD_I_NNN", 0xA000, 0xF000⟩, ⟨"JP_V0", 0xB000, 0xF000⟩, ⟨"RND", 0xC000, 0xF000⟩, ⟨"DRW", 0xD000, 0xF000⟩,
   ⟨"SKP", 0xE09E, 0xF0FF⟩, ⟨"SKNP", 0xE0A1, 0xF0FF⟩, ⟨"LD_VX_DT", 0xF007, 0xF0FF⟩, ⟨"LD_VX_K", 0xF00A, 0xF0FF⟩] ++
  [⟨"LD_DT_VX", 0xF015, 0xF0FF⟩, ⟨"LD_ST_VX", 0xF018, 0xF0FF⟩, ⟨"ADD_I_VX", 0xF01E, 0xF0FF⟩,
   ⟨"LD_F_VX", 0xF029, 0xF0FF⟩, ⟨"LD_B_VX", 0xF033, 0xF0FF⟩, ⟨"LD_MEM_VX", 0xF055, 0xF0FF⟩,
   ⟨"LD_VX_MEM", 0xF065, 0xF0FF⟩]

/-- The word a number of `nbits` bits stands for, bits above `nbits` zero (the table's numbering: bit 0 is the least significant
bit of the instruction word). -/
def tableWord (nbits w : Nat) : Word := BitVec.ofNat 16 (w % 2 ^ nbits)

/-- What the decoder reads from a word of the opcode table, laid out big-endian as two bytes. -/
def decodeTableWord (nbits w : Nat) : Option Instr :=
  match decodeBytes [wordHi (tableWord nbits w), wordLo (tableWord nbits w)] with
  | .ok (i, _) => some i
  | .error _ => none

end Sys2Proof
end

