-- ==== Sys2Proof/Config.lean ====
section
/-! DEFINITION. The fixed sizes of the machine (00_scope.md R6), its parameters (00_scope.md R7) and its one free value, the
random byte (41_load_and_alu.md R163). -/

namespace Sys2Proof.Config

/-- `MEM_SIZE`, 00_scope.md R6. -/
abbrev memSize : Nat := 4096

/-- `FONT_SIZE`: the font table fills the cells 0 to 79 (00_scope.md R6, 20_memory.md R61). -/
abbrev fontSize : Nat := 80

/-- `PROG_BASE`: where `load` puts a program, and the reset value of PC (00_scope.md R6). -/
abbrev progBase : Nat := 0x200

/-- `PROG_MAX`: the longest program `load` accepts (00_scope.md R6, 70_reset_and_hazards.md R274). -/
abbrev progMax : Nat := 3584

/-- `STACK_DEPTH`, 00_scope.md R6. -/
abbrev stackDepth : Nat := 16

/-- `DISP_W`, 00_scope.md R6. -/
abbrev dispW : Nat := 64

/-- `DISP_H`, 00_scope.md R6. -/
abbrev dispH : Nat := 32

/-- The parameters the spec says a model takes as arguments (00_scope.md R7, 10_state.md R37): the number of instruction
cycles one `run_frame` attempts and the 80 bytes of the font table. A step has no argument beside the state, so the
parameters ride in State as a field that no step changes (DESIGN CHOICE, safe: a statement about every state holds for every
value of the parameters; log 5). The spec's TICK_PERIOD_MS enters no rule and is left out (log 10). -/
structure Params where
  /-- `CYCLES_PER_FRAME`, at least 1 (92_eei_decisions.md D21). -/
  cyclesPerFrame : Nat
  /-- `FONT`: byte k is the reset value of MEM[k] (10_state.md R36). -/
  font : Vector Byte 80
  deriving DecidableEq, Repr

/-- FREE VALUE. The byte the outside world supplies at the k-th execution of `Cxkk`, counted from 0. It has no body: nothing
is assumed of it, neither a distribution nor that two draws differ or agree (41_load_and_alu.md R163, D14; log 8). -/
opaque randByte : Nat → Byte

end Sys2Proof.Config
end

