-- ==== Sys2Proof/Machine/Params.lean ====
section
/-! DEFINITION. The default values of the parameters (00_scope.md R7): what State.reset holds. No statement rests on them. -/

namespace Sys2Proof.Machine

/-- The default of `FONT`, the table of 10_state.md R36: glyph g is the five bytes from 5g, top row first. PRESUMED (the spec
marks the bytes as general knowledge, 93_implementation_defined.md U3), unsafe for a claim that reads a glyph's bytes; log 6. -/
def defaultFont : Vector Byte 80 :=
  #v[0xF0, 0x90, 0x90, 0x90, 0xF0,  0x20, 0x60, 0x20, 0x20, 0x70,  0xF0, 0x10, 0xF0, 0x80, 0xF0,  0xF0, 0x10, 0xF0, 0x10, 0xF0,
     0x90, 0x90, 0xF0, 0x10, 0x10,  0xF0, 0x80, 0xF0, 0x10, 0xF0,  0xF0, 0x80, 0xF0, 0x90, 0xF0,  0xF0, 0x10, 0x20, 0x40, 0x40,
     0xF0, 0x90, 0xF0, 0x90, 0xF0,  0xF0, 0x90, 0xF0, 0x10, 0xF0,  0xF0, 0x90, 0xF0, 0x90, 0x90,  0xE0, 0x90, 0xE0, 0x90, 0xE0,
     0xF0, 0x80, 0x80, 0x80, 0xF0,  0xE0, 0x90, 0x90, 0x90, 0xE0,  0xF0, 0x80, 0xF0, 0x80, 0xF0,  0xF0, 0x80, 0xF0, 0x80, 0x80]

/-- The default of `CYCLES_PER_FRAME`: "default 10" (00_scope.md R7, 92_eei_decisions.md D21; log 7). -/
def defaultCyclesPerFrame : Nat := 10

/-- The default parameters. -/
def defaultParams : Config.Params := { cyclesPerFrame := defaultCyclesPerFrame, font := defaultFont }

end Sys2Proof.Machine
end

