-- ==== Sys2Proof/Machine/State.lean ====
section
/-! DEFINITION. The state of the machine: every piece of 10_state.md R39, and five fields of the model's own (log 1 to 5, 8).
Plain data throughout. -/

namespace Sys2Proof.Machine

/-- RUN, 10_state.md R33. -/
inductive RunState where
  | running
  | paused
  | awaitingKey
  deriving DecidableEq, Repr

/-- FAULT, 10_state.md R35: the latch of the two fatal stack faults. -/
inductive FaultLatch where
  | none
  | stackOverflow
  | stackUnderflow
  deriving DecidableEq, Repr

/-- KEYEVT, 10_state.md R32: the pair (valid: 1 bit, key: 4 bits). -/
structure KeyEvt where
  valid : Bool
  key : Nibble
  deriving DecidableEq, Repr

/-- The result of `load`, 70_reset_and_hazards.md R274. -/
inductive LoadStatus where
  | ok
  | programTooLarge
  deriving DecidableEq, Repr

/-- The host events, 10_state.md R42: the only inputs of the block. -/
inductive HostEvent where
  /-- `reset()`, 70_reset_and_hazards.md R270 -/
  | reset
  /-- `load(bytes)`, 70_reset_and_hazards.md R274 -/
  | load (bytes : List Byte)
  /-- `run_frame()`, 60_exceptions.md R242 -/
  | runFrame
  /-- `set_key(k, down)`, 60_exceptions.md R246 -/
  | setKey (k : Nibble) (down : Bool)
  /-- `pause()`, 60_exceptions.md R247 -/
  | pause
  /-- `run()`, 60_exceptions.md R248 -/
  | run
  /-- `step()`, 60_exceptions.md R249 -/
  | step
  deriving DecidableEq, Repr

/-- The outputs that are events and not readable state, 10_state.md R41 (d) and (e). -/
inductive HostOutput where
  /-- The diagnostic `diag(UnknownOpcode, op, addr)`, 60_exceptions.md R236. -/
  | unknownOpcode (op addr : Word)
  /-- What `load` returned, 70_reset_and_hazards.md R274. -/
  | loaded (status : LoadStatus)
  deriving DecidableEq, Repr

/-- FB, 10_state.md R30: 32 rows of 64 one-bit pixels, row 0 the top; column x of a row is its bit x. -/
abbrev Display := Vector (BitVec 64) 32

/-- The whole state (10_state.md R20 to R36, R39). -/
structure State where
  /-- V[0] to V[15], 10_state.md R20; V[15] is VF (R21) -/
  v : Vector Byte 16
  /-- I, 10_state.md R22 -/
  i : Word
  /-- PC, 10_state.md R23, R24 -/
  pc : Word
  /-- SP, the number of entries in use, 0 to 16 inclusive, 10_state.md R26 -/
  sp : Fin 17
  /-- STACK[0] to STACK[15], 10_state.md R25 -/
  stack : Vector Word 16
  /-- DT, 10_state.md R29 -/
  dt : Byte
  /-- ST, 10_state.md R29 -/
  st : Byte
  /-- FB, 10_state.md R30 -/
  fb : Display
  /-- KEY[0] to KEY[15], 10_state.md R31 -/
  key : Vector Bool 16
  /-- KEYEVT, 10_state.md R32 -/
  keyEvt : KeyEvt
  /-- RUN, 10_state.md R33 -/
  run : RunState
  /-- WAITREG, 10_state.md R34 -/
  waitReg : Nibble
  /-- FAULT, 10_state.md R35 -/
  fault : FaultLatch
  /-- MEM, 10_state.md R36, 20_memory.md R60: the cells that differ from the reset image, addresses strictly rising
  (`Memory.wf`); every other cell holds its reset value -/
  mem : List Host.Cell
  /-- the model's own: the parameters, which no step changes (00_scope.md R7; log 5) -/
  params : Config.Params
  /-- the model's own: instruction cycles the `run_frame` in progress has still to attempt, 0 between frames (60_exceptions.md
  R242; log 1) -/
  frameLeft : Nat
  /-- the model's own: host events raised and not yet delivered, oldest first; while it is empty the host is silent
  (10_state.md R42, 70_reset_and_hazards.md R286; log 2, 3) -/
  inbox : List HostEvent
  /-- the model's own: the output events given so far, oldest first (10_state.md R41; log 4) -/
  outbox : List HostOutput
  /-- the model's own: random bytes drawn so far (41_load_and_alu.md R163; log 8) -/
  randCount : Nat
  deriving DecidableEq, Repr

/-- Reasons a step stops the machine with a fault: NONE. The two fatal stack faults are not of this type: their entry is
described by the spec (60_exceptions.md R232) and is a next state with FAULT latched, in which host events still act (R233); the
other two names of the closed taxonomy of R230 are a result of `load` and a diagnostic. Safe: no step stops where the block
goes on. -/
inductive Fault where
  deriving DecidableEq, Repr

/-- Reasons a step is refused. -/
inductive Refusal where
  /-- Raised by an arm of `exec` for an instruction that has no meaning yet. Safe: nothing can be proved of a run beyond it. No
  arm raises it now: all 34 instructions have their meaning. -/
  | notModelled (mnemonic : String)
  deriving DecidableEq, Repr

/-- The outcome of a cycle, a frame step or an event. -/
abbrev Result := Host.Outcome State Fault Refusal

/-- The machine right after reset: 70_reset_and_hazards.md R270, 10_state.md R43. The model's own fields: parameters at their
defaults (log 6, 7), no frame in progress, no event pending, no output given, no random byte drawn (log 1 to 4, 8). -/
def State.reset : State where
  v := Vector.replicate 16 0
  i := 0
  pc := 0x200
  sp := 0
  stack := Vector.replicate 16 0
  dt := 0
  st := 0
  fb := Vector.replicate 32 0
  key := Vector.replicate 16 false
  keyEvt := ⟨false, 0⟩
  run := .running
  waitReg := 0
  fault := .none
  mem := []
  params := defaultParams
  frameLeft := 0
  inbox := []
  outbox := []
  randCount := 0

end Sys2Proof.Machine
end

