-- ==== Sys2Proof/Machine/Memory.lean ====
section
/-! DEFINITION. The memory as plain data: the list of the cells that differ from the reset image, in one canonical form. The
addresses here are already reduced modulo 4096 (20_memory.md R62); the reduction stands in the access primitives of Ops.lean. -/

namespace Sys2Proof.Machine

/-- What a cell that is not listed reads as: its value after reset, FONT in cells 0 to 79 and 0x00 above (10_state.md R36, D2;
log 9). -/
def Memory.initial (font : Vector Byte 80) (a : Nat) : Byte := if h : a < 80 then font[a] else 0

/-- One cell. -/
def Memory.read (font : Vector Byte 80) : List Host.Cell → Nat → Byte
  | [], a => Memory.initial font a
  | (a', b) :: rest, a => if a = a' then b else Memory.read font rest a

/-- The cells without any entry for `a`. -/
def Memory.erase : List Host.Cell → Nat → List Host.Cell
  | [], _ => []
  | (a', b) :: rest, a => if a = a' then Memory.erase rest a else (a', b) :: Memory.erase rest a

/-- An entry put before the first one of a higher address. -/
def Memory.insert : List Host.Cell → Nat → Byte → List Host.Cell
  | [], a, b => [(a, b)]
  | (a', b') :: rest, a, b => if a < a' then (a, b) :: (a', b') :: rest else (a', b') :: Memory.insert rest a b

/-- The cells after writing `b` to `a`; a value equal to the reset image is not listed. -/
def Memory.write (font : Vector Byte 80) (cells : List Host.Cell) (a : Nat) (b : Byte) : List Host.Cell :=
  if b = Memory.initial font a then Memory.erase cells a else Memory.insert (Memory.erase cells a) a b

/-- The canonical form from address `lo` up: addresses strictly rising, inside the address space, no entry equal to the reset
image. -/
def Memory.wfFrom (font : Vector Byte 80) : Nat → List Host.Cell → Bool
  | _, [] => true
  | lo, (a, b) :: rest =>
    decide (lo ≤ a) && decide (a < Config.memSize) && decide (b ≠ Memory.initial font a) && Memory.wfFrom font (a + 1) rest

/-- The canonical form of a memory: two memories in it that read alike are the same list. -/
def Memory.wf (font : Vector Byte 80) (cells : List Host.Cell) : Bool := Memory.wfFrom font 0 cells

end Sys2Proof.Machine
end

