-- ==== Sys2Proof/Machine/Ops.lean ====
section
/-! DEFINITION. The named operations the meanings are written with: registers, PC, stack, memory, random input, outputs, and the
entry into a fault with the one way back from it. -/

namespace Sys2Proof.Machine

/-! ### General registers -/

/-- `V[r]` (00_scope.md R9, 10_state.md R20). -/
def State.getV (s : State) (r : Nibble) : Byte := s.v[r.toNat]'r.isLt

/-- `V[r] <- b` (00_scope.md R9, 10_state.md R20). -/
def State.setV (s : State) (r : Nibble) (b : Byte) : State := { s with v := s.v.set r.toNat b r.isLt }

/-- The index of VF (10_state.md R21). -/
abbrev vf : Nibble := 15

/-- `V[0]` to `V[x]`, ascending (42_index_and_memory.md R184). -/
def State.regsUpTo (s : State) (x : Nibble) : List Byte :=
  (List.range (x.toNat + 1)).map fun k => s.getV (BitVec.ofNat 4 k)

/-- Load the bytes into `V[k]`, `V[k+1]`, and so on (42_index_and_memory.md R185). -/
def State.setRegsFrom (s : State) (k : Nat) : List Byte → State
  | [] => s
  | b :: rest => (s.setV (BitVec.ofNat 4 k) b).setRegsFrom (k + 1) rest

/-! ### Index register and program counter -/

/-- `I <- w` (10_state.md R22). -/
def State.setI (s : State) (w : Word) : State := { s with i := w }

/-- `PC <- w` (10_state.md R24). -/
def State.setPc (s : State) (w : Word) : State := { s with pc := w }

/-- `PC <- (PC + 2) mod 65536`: the advance of 40_cycle_and_control_flow.md R120 and the skip of R125. -/
def State.advancePc (s : State) : State := s.setPc (s.pc + 2)

/-- Skip the next instruction when the condition holds (40_cycle_and_control_flow.md R125). -/
def State.skipIf (s : State) (c : Bool) : State := if c then s.advancePc else s

/-! ### Memory -/

/-- `MemRead(a)`: the byte `MEM[a mod 4096]`, for any address; it never fails (20_memory.md R62). -/
def State.memRead (s : State) (a : Nat) : Byte := Memory.read s.params.font s.mem (a % Config.memSize)

/-- `MemWrite(a, b)`: `MEM[a mod 4096] <- b`, no other cell; it never fails (20_memory.md R63). -/
def State.memWrite (s : State) (a : Nat) (b : Byte) : State :=
  { s with mem := Memory.write s.params.font s.mem (a % Config.memSize) b }

/-- The n bytes from address a, each address wrapped on its own (20_memory.md R64, R65). -/
def State.memReadList (s : State) (a n : Nat) : List Byte := (List.range n).map fun k => s.memRead (a + k)

/-- Store the bytes from address a up, each address wrapped on its own (20_memory.md R64, R65). -/
def State.memWriteList (s : State) (a : Nat) : List Byte → State
  | [] => s
  | b :: rest => (s.memWrite a b).memWriteList (a + 1) rest

/-! ### Call stack -/

/-- `push(a)`, 10_state.md R27; `none` is the overflow, which changes nothing. -/
def State.push (s : State) (a : Word) : Option State :=
  if h : s.sp.val < 16 then
    some { s with stack := s.stack.set s.sp.val a h, sp := ⟨s.sp.val + 1, by omega⟩ }
  else none

/-- `pop()`, 10_state.md R28: the value and the state after; `none` is the underflow, which changes nothing. -/
def State.pop (s : State) : Option (Word × State) :=
  if h : 0 < s.sp.val then
    some (s.stack[s.sp.val - 1]'(by omega), { s with sp := ⟨s.sp.val - 1, by omega⟩ })
  else none

/-! ### Random input and outputs -/

/-- The next random byte, and the state in which it has been drawn (41_load_and_alu.md R163). -/
def State.drawRandom (s : State) : Byte × State := (Config.randByte s.randCount, { s with randCount := s.randCount + 1 })

/-- Give an output event to the host (10_state.md R41 (d), (e)). -/
def State.emit (s : State) (o : HostOutput) : State := { s with outbox := s.outbox ++ [o] }

/-! ### Activity, fault entry, and the way back -/

/-- An instruction cycle or a tick happens only in this condition (40_cycle_and_control_flow.md R120, 60_exceptions.md R242). -/
def State.active (s : State) : Bool := decide (s.run = .running) && decide (s.fault = .none)

/-- `raise <Fault>`, 60_exceptions.md R232, on a state in which nothing but the PC advance of the cycle has happened: the advance
is undone and FAULT latched; every other piece of state stays, RUN included. -/
def State.raiseFault (s : State) (f : FaultLatch) : State := { s with pc := s.pc - 2, fault := f }

/-- The event `reset()`, 70_reset_and_hazards.md R270, the only way back from a fault (60_exceptions.md R233, R240): every piece of
the block's state takes its reset value whatever it was. The parameters stay, memory becomes their reset image, and what belongs
to the host and not to the block stays too: its pending events, the outputs given, the count of random bytes (log 12). -/
def State.resetEvent (s : State) : State :=
  { State.reset with params := s.params, inbox := s.inbox, outbox := s.outbox, randCount := s.randCount }

end Sys2Proof.Machine
end

