-- ==== Sys2Proof/Machine/Operands.lean ====
section
/-! DEFINITION. The operand forms: the one data addressing mode (42_index_and_memory.md R186) and the key index of the key skips
(44_keypad_and_timers.md R210 to R212). Registers and immediates are read by `State.getV` and the zero extensions of Word.lean. -/

namespace Sys2Proof.Machine

/-- The unwrapped address I + k of the byte at offset k (42_index_and_memory.md R186); the access primitives reduce it modulo
4096. -/
def State.iAddr (s : State) (k : Nat) : Nat := s.i.toNat + k

/-- The cell that the byte at offset k from I lies in: `(I + k) mod 4096` (20_memory.md R64). -/
def State.iCell (s : State) (k : Nat) : Nat := s.iAddr k % Config.memSize

/-- `isDown(k)` for the byte a key skip reads: a key above 15 does not exist and is never down (44_keypad_and_timers.md R212,
D7; log 9). -/
def State.keyDown (s : State) (k : Byte) : Bool := if h : k.toNat < 16 then s.key[k.toNat] else false

/-- `anyDown()`, the logical OR of the 16 key states (10_state.md R31, R41 (f)). -/
def State.anyDown (s : State) : Bool := s.key.toList.any id

end Sys2Proof.Machine
end

