-- ==== Sys2Proof/Machine/ControlFlow.lean ====
section
/-! DEFINITION. The eight control-transfer instructions, 40_cycle_and_control_flow.md R122 to R130. The state a meaning is given is
the state after the PC advance of R120: its `pc` is the address of the following instruction. -/

namespace Sys2Proof.Machine

/-- `00EE`, `PC <- pop()`: 40_cycle_and_control_flow.md R122; StackUnderflow when SP = 0 (60_exceptions.md R234). -/
def execRet (s : State) : Host.Outcome State Fault Refusal :=
  match s.pop with
  | some (ra, t) => .next (t.setPc ra)
  | none => .next (s.raiseFault .stackUnderflow)

/-- `1nnn`, `PC <- zext_16(nnn)`: 40_cycle_and_control_flow.md R123. -/
def execJp (nnn : Addr12) (s : State) : Host.Outcome State Fault Refusal := .next (s.setPc nnn.toWord)

/-- `2nnn`, `push(PC); PC <- zext_16(nnn)`: 40_cycle_and_control_flow.md R124; StackOverflow when SP = 16 (60_exceptions.md
R231). -/
def execCall (nnn : Addr12) (s : State) : Host.Outcome State Fault Refusal :=
  match s.push s.pc with
  | some t => .next (t.setPc nnn.toWord)
  | none => .next (s.raiseFault .stackOverflow)

/-- `3xkk`: 40_cycle_and_control_flow.md R126. -/
def execSeVxKk (x : Nibble) (kk : Byte) (s : State) : Host.Outcome State Fault Refusal :=
  .next (s.skipIf (decide (s.getV x = kk)))

/-- `4xkk`: 40_cycle_and_control_flow.md R127. -/
def execSneVxKk (x : Nibble) (kk : Byte) (s : State) : Host.Outcome State Fault Refusal :=
  .next (s.skipIf (decide (s.getV x ≠ kk)))

/-- `5xy0`: 40_cycle_and_control_flow.md R128. -/
def execSeVxVy (x y : Nibble) (s : State) : Host.Outcome State Fault Refusal :=
  .next (s.skipIf (decide (s.getV x = s.getV y)))

/-- `9xy0`: 40_cycle_and_control_flow.md R129. -/
def execSneVxVy (x y : Nibble) (s : State) : Host.Outcome State Fault Refusal :=
  .next (s.skipIf (decide (s.getV x ≠ s.getV y)))

/-- `Bnnn`, `PC <- (zext_16(nnn) + V[0]) mod 65536`: 40_cycle_and_control_flow.md R130. -/
def execJpV0 (nnn : Addr12) (s : State) : Host.Outcome State Fault Refusal :=
  .next (s.setPc (nnn.toWord + (s.getV 0).toWord))

end Sys2Proof.Machine
end

