-- ==== Sys2Proof/Machine/Flags.lean ====
section
/-! DEFINITION. The flag and the result of the five flag-writing arithmetic instructions, each from the full-precision operands
(41_load_and_alu.md R150, R162), and the order of their two writes. -/

namespace Sys2Proof.Machine

/-- A flag write stores exactly 0 or 1 (10_state.md R38). -/
def flagByte (c : Bool) : Byte := if c then 1 else 0

/-- `sum > 255` on the untruncated sum (41_load_and_alu.md R157). -/
def addFlag (a b : Byte) : Bool := decide (255 < a.toNat + b.toNat)

/-- `sum mod 256` (41_load_and_alu.md R157, R152). -/
def addResult (a b : Byte) : Byte := BitVec.ofNat 8 (a.toNat + b.toNat)

/-- `a > b`, strict (41_load_and_alu.md R158, R160). -/
def subFlag (a b : Byte) : Bool := decide (b.toNat < a.toNat)

/-- `(a - b) mod 256` of the exact difference (41_load_and_alu.md R158, R160). -/
def subResult (a b : Byte) : Byte := BitVec.ofInt 8 ((a.toNat : Int) - (b.toNat : Int))

/-- `a[0]` (41_load_and_alu.md R159). -/
def shrFlag (a : Byte) : Bool := a.getLsbD 0

/-- `a >> 1`, logical (41_load_and_alu.md R159). -/
def shrResult (a : Byte) : Byte := a >>> 1

/-- `a[7]` (41_load_and_alu.md R161). -/
def shlFlag (a : Byte) : Bool := a.getLsbD 7

/-- `(a << 1) mod 256` (41_load_and_alu.md R161). -/
def shlResult (a : Byte) : Byte := a <<< 1

/-- The two writes in their order: `V[15] <- flag`, then `V[x] <- result` (41_load_and_alu.md R150 (c), D4; log 9). -/
def State.writeFlagged (s : State) (x : Nibble) (flag : Bool) (result : Byte) : State :=
  (s.setV vf (flagByte flag)).setV x result

end Sys2Proof.Machine
end

