-- ==== Sys2Proof/Machine/Display.lean ====
section
/-! DEFINITION. The display and the XOR sprite blit, 43_display.md R200 to R203. -/

namespace Sys2Proof.Machine

/-- `FB[x][y]`, the coordinates reduced modulo 64 and 32 before indexing (10_state.md R30, 43_display.md R203). -/
def Display.pixel (fb : Display) (x y : Nat) : Bool := (fb[y % 32]'(Nat.mod_lt _ (by decide))).getLsbD (x % 64)

/-- `FB[x][y] <- FB[x][y] XOR 1` (43_display.md R202). -/
def Display.flip (fb : Display) (x y : Nat) : Display :=
  fb.set (y % 32) ((fb[y % 32]'(Nat.mod_lt _ (by decide))) ^^^ (1#64 <<< (x % 64))) (Nat.mod_lt _ (by decide))

/-- `clear()`: all 2048 pixels 0 (43_display.md R200). -/
def Display.clear : Display := Vector.replicate 32 0

/-- One column of one sprite row: if the bit at column c (bit 7 - c, bit 7 leftmost) is set, note a lit pixel and flip it
(43_display.md R202). -/
def plotBit (px py : Nat) (row : Byte) (acc : Display × Bool) (c : Nat) : Display × Bool :=
  if row.getLsbD (7 - c) then
    (Display.flip acc.1 (px + c) py, acc.2 || Display.pixel acc.1 (px + c) py)
  else acc

/-- One sprite row at (px, py): its eight columns (43_display.md R202). -/
def plotRow (px py : Nat) (row : Byte) (acc : Display × Bool) : Display × Bool :=
  (List.range 8).foldl (plotBit px py row) acc

/-- The rows of a sprite downward from row py, each wrapping (43_display.md R202, R203). -/
def plotRows (px : Nat) : Nat → List Byte → Display × Bool → Display × Bool
  | _, [], acc => acc
  | py, row :: rest, acc => plotRows px (py + 1) rest (plotRow px py row acc)

/-- `blit(px, py, rows) -> collision`, with the display after it (43_display.md R202). -/
def blit (fb : Display) (px py : Nat) (rows : List Byte) : Display × Bool := plotRows px py rows (fb, false)

/-- `00E0`: 43_display.md R200. -/
def execCls (s : State) : Host.Outcome State Fault Refusal := .next { s with fb := Display.clear }

/-- `Dxyn`, the n bytes at I drawn at (V[x], V[y]), VF the collision: 43_display.md R201. -/
def execDrw (x y n : Nibble) (s : State) : Host.Outcome State Fault Refusal :=
  let drawn := blit s.fb (s.getV x).toNat (s.getV y).toNat (s.memReadList (s.iAddr 0) n.toNat)
  .next ({ s with fb := drawn.1 }.setV vf (flagByte drawn.2))

end Sys2Proof.Machine
end

