-- ==== Sys2Proof/Machine/IndexMemory.lean ====
section
/-! DEFINITION. The index register and the memory transfers, 42_index_and_memory.md R180 to R185. No memory instruction changes
I. -/

namespace Sys2Proof.Machine

/-- `Annn`, `I <- zext_16(nnn)`: 42_index_and_memory.md R180. -/
def execLdINnn (nnn : Addr12) (s : State) : Host.Outcome State Fault Refusal := .next (s.setI nnn.toWord)

/-- `Fx1E`, `I <- (I + V[x]) mod 65536`, no flag: 42_index_and_memory.md R181. -/
def execAddIVx (x : Nibble) (s : State) : Host.Outcome State Fault Refusal := .next (s.setI (s.i + (s.getV x).toWord))

/-- The address of the glyph a byte names: five bytes each, from 0, the whole byte counting (42_index_and_memory.md R182). -/
def glyphAddr (b : Byte) : Word := BitVec.ofNat 16 (b.toNat * 5)

/-- `Fx29`, `I <- V[x] * 5`: 42_index_and_memory.md R182. -/
def execLdFVx (x : Nibble) (s : State) : Host.Outcome State Fault Refusal := .next (s.setI (glyphAddr (s.getV x)))

/-- The decimal digits of a byte, hundreds, tens, ones, one digit a byte (42_index_and_memory.md R183). -/
def bcdDigits (b : Byte) : List Byte :=
  [BitVec.ofNat 8 (b.toNat / 100), BitVec.ofNat 8 (b.toNat / 10 % 10), BitVec.ofNat 8 (b.toNat % 10)]

/-- `Fx33`, the three digits of V[x] to I, I+1, I+2: 42_index_and_memory.md R183. -/
def execLdBVx (x : Nibble) (s : State) : Host.Outcome State Fault Refusal :=
  .next (s.memWriteList (s.iAddr 0) (bcdDigits (s.getV x)))

/-- `Fx55`, V[0] to V[x] to I, I+1, ..., I+x: 42_index_and_memory.md R184. -/
def execLdMemVx (x : Nibble) (s : State) : Host.Outcome State Fault Refusal :=
  .next (s.memWriteList (s.iAddr 0) (s.regsUpTo x))

/-- `Fx65`, V[0] to V[x] from I, I+1, ..., I+x: 42_index_and_memory.md R185. -/
def execLdVxMem (x : Nibble) (s : State) : Host.Outcome State Fault Refusal :=
  .next (s.setRegsFrom 0 (s.memReadList (s.iAddr 0) (x.toNat + 1)))

end Sys2Proof.Machine
end

