-- ==== Sys2Proof/Machine/KeypadTimers.lean ====
section
/-! DEFINITION. The keypad and timer instructions, 44_keypad_and_timers.md R210 to R216. -/

namespace Sys2Proof.Machine

/-- `Ex9E`, skip if key V[x] is down: 44_keypad_and_timers.md R210. -/
def execSkp (x : Nibble) (s : State) : Host.Outcome State Fault Refusal := .next (s.skipIf (s.keyDown (s.getV x)))

/-- `ExA1`, skip if key V[x] is up: 44_keypad_and_timers.md R211. -/
def execSknp (x : Nibble) (s : State) : Host.Outcome State Fault Refusal := .next (s.skipIf (!s.keyDown (s.getV x)))

/-- `Fx07`, `V[x] <- DT`: 44_keypad_and_timers.md R213. -/
def execLdVxDt (x : Nibble) (s : State) : Host.Outcome State Fault Refusal := .next (s.setV x s.dt)

/-- `Fx0A`, `WAITREG <- x; KEYEVT <- (0, 0); RUN <- AwaitingKey`: 44_keypad_and_timers.md R214. -/
def execLdVxK (x : Nibble) (s : State) : Host.Outcome State Fault Refusal :=
  .next { s with waitReg := x, keyEvt := ⟨false, 0⟩, run := .awaitingKey }

/-- `Fx15`, `DT <- V[x]`: 44_keypad_and_timers.md R215. -/
def execLdDtVx (x : Nibble) (s : State) : Host.Outcome State Fault Refusal := .next { s with dt := s.getV x }

/-- `Fx18`, `ST <- V[x]`: 44_keypad_and_timers.md R216. -/
def execLdStVx (x : Nibble) (s : State) : Host.Outcome State Fault Refusal := .next { s with st := s.getV x }

end Sys2Proof.Machine
end

