-- ==== Sys2Proof/Machine/LoadAlu.lean ====
section
/-! DEFINITION. Register load, move, logic, arithmetic, shift and random, 41_load_and_alu.md R150 to R163. -/

namespace Sys2Proof.Machine

/-- `6xkk`, `V[x] <- kk`: 41_load_and_alu.md R151. -/
def execLdVxKk (x : Nibble) (kk : Byte) (s : State) : Host.Outcome State Fault Refusal := .next (s.setV x kk)

/-- `7xkk`, `V[x] <- (V[x] + kk) mod 256`, no flag: 41_load_and_alu.md R152. -/
def execAddVxKk (x : Nibble) (kk : Byte) (s : State) : Host.Outcome State Fault Refusal :=
  .next (s.setV x (addResult (s.getV x) kk))

/-- `8xy0`, `V[x] <- V[y]`: 41_load_and_alu.md R153. -/
def execLdVxVy (x y : Nibble) (s : State) : Host.Outcome State Fault Refusal := .next (s.setV x (s.getV y))

/-- `8xy1`, `V[x] <- V[x] OR V[y]`, VF unchanged: 41_load_and_alu.md R154. -/
def execOr (x y : Nibble) (s : State) : Host.Outcome State Fault Refusal := .next (s.setV x (s.getV x ||| s.getV y))

/-- `8xy2`, `V[x] <- V[x] AND V[y]`, VF unchanged: 41_load_and_alu.md R155. -/
def execAnd (x y : Nibble) (s : State) : Host.Outcome State Fault Refusal := .next (s.setV x (s.getV x &&& s.getV y))

/-- `8xy3`, `V[x] <- V[x] XOR V[y]`, VF unchanged: 41_load_and_alu.md R156. -/
def execXor (x y : Nibble) (s : State) : Host.Outcome State Fault Refusal := .next (s.setV x (s.getV x ^^^ s.getV y))

/-- `8xy4`, the sum and its carry: 41_load_and_alu.md R157. -/
def execAddVxVy (x y : Nibble) (s : State) : Host.Outcome State Fault Refusal :=
  .next (s.writeFlagged x (addFlag (s.getV x) (s.getV y)) (addResult (s.getV x) (s.getV y)))

/-- `8xy5`, Vx - Vy and `Vx > Vy`: 41_load_and_alu.md R158. -/
def execSub (x y : Nibble) (s : State) : Host.Outcome State Fault Refusal :=
  .next (s.writeFlagged x (subFlag (s.getV x) (s.getV y)) (subResult (s.getV x) (s.getV y)))

/-- `8xy6`, Vx shifted right by one; V[y] is not read: 41_load_and_alu.md R159. -/
def execShr (x _y : Nibble) (s : State) : Host.Outcome State Fault Refusal :=
  .next (s.writeFlagged x (shrFlag (s.getV x)) (shrResult (s.getV x)))

/-- `8xy7`, Vy - Vx and `Vy > Vx`: 41_load_and_alu.md R160. -/
def execSubn (x y : Nibble) (s : State) : Host.Outcome State Fault Refusal :=
  .next (s.writeFlagged x (subFlag (s.getV y) (s.getV x)) (subResult (s.getV y) (s.getV x)))

/-- `8xyE`, Vx shifted left by one; V[y] is not read: 41_load_and_alu.md R161. -/
def execShl (x _y : Nibble) (s : State) : Host.Outcome State Fault Refusal :=
  .next (s.writeFlagged x (shlFlag (s.getV x)) (shlResult (s.getV x)))

/-- `Cxkk`, `V[x] <- rand_byte AND kk`: 41_load_and_alu.md R163. -/
def execRnd (x : Nibble) (kk : Byte) (s : State) : Host.Outcome State Fault Refusal :=
  .next (s.drawRandom.2.setV x (s.drawRandom.1 &&& kk))

end Sys2Proof.Machine
end

