-- ==== Sys2Proof/Machine/Cycle.lean ====
section
/-! DEFINITION. The instruction cycle (40_cycle_and_control_flow.md R120, R132), the timer tick and the frame (60_exceptions.md R242,
R243). -/

namespace Sys2Proof.Machine

/-- The word at PC: two bytes, big-endian, each address wrapped on its own (20_memory.md R65, R66). -/
def State.fetch (s : State) : Word := wordOfBytes (s.memRead s.pc.toNat) (s.memRead (s.pc.toNat + 1))

/-- One instruction cycle, 40_cycle_and_control_flow.md R120: fetch, advance, execute; a word that is no instruction emits its
diagnostic and nothing else (R132, 60_exceptions.md R236). Whether a cycle may happen is the caller's test. -/
def instructionCycle (s : State) : Host.Outcome State Fault Refusal :=
  match decodeWord s.fetch with
  | .ok i => exec i s.advancePc
  | .error _ => .next (s.advancePc.emit (.unknownOpcode s.fetch s.pc))

/-- One decrement that stops at 0 (60_exceptions.md R243). -/
def countDown (b : Byte) : Byte := if b = 0 then 0 else b - 1

/-- `tick()`, 60_exceptions.md R243. -/
def State.tick (s : State) : State := { s with dt := countDown s.dt, st := countDown s.st }

/-- The loop of `run_frame`, 60_exceptions.md R242: at most n instruction cycles, broken off when the machine is no longer
active. -/
def runCycles : Nat → State → Host.Outcome State Fault Refusal
  | 0, s => .next s
  | n + 1, s =>
    if s.active then
      match instructionCycle s with
      | .next t => runCycles n t
      | .fault r => .fault r
      | .refused r => .refused r
    else .next s

/-- `run_frame()` as ONE transition, 60_exceptions.md R242. The step function goes through the same frame one cycle at a time
(`beginFrame`, `continueFrame`); that the two agree is a statement about them. -/
def runFrame (s : State) : Host.Outcome State Fault Refusal :=
  if s.active then
    match runCycles s.params.cyclesPerFrame s with
    | .next t => .next (if t.active then t.tick else t)
    | .fault r => .fault r
    | .refused r => .refused r
  else .next s

/-- What `run_frame` does after one instruction cycle: break the batch off, without a tick, when the machine is no longer active;
count the cycle; after the last one, tick (60_exceptions.md R242, D8; log 1, 9). -/
def State.afterCycle (s : State) : State :=
  if s.active then
    if s.frameLeft ≤ 1 then { s with frameLeft := 0 }.tick else { s with frameLeft := s.frameLeft - 1 }
  else { s with frameLeft := 0 }

/-- One instruction cycle of the frame in progress. -/
def frameCycle (s : State) : Host.Outcome State Fault Refusal :=
  match instructionCycle s with
  | .next t => .next t.afterCycle
  | .fault r => .fault r
  | .refused r => .refused r

/-- The start of a `run_frame`, with the first instruction cycle of its batch; nothing when the machine is not active
(60_exceptions.md R242). -/
def beginFrame (s : State) : Host.Outcome State Fault Refusal :=
  if s.active then
    if s.params.cyclesPerFrame = 0 then .next s.tick
    else frameCycle { s with frameLeft := s.params.cyclesPerFrame }
  else .next s

/-- The next cycle of a frame in progress (60_exceptions.md R242). -/
def continueFrame (s : State) : Host.Outcome State Fault Refusal :=
  if s.active then frameCycle s else .next { s with frameLeft := 0 }

end Sys2Proof.Machine
end

