-- ==== Sys2Proof/WellFormed.lean ====
section
/-! DEFINITION. What is well formed. An instruction always is: "all 16 values of each field are legal in every instruction that
has the field" (30_encoding.md R94), and kk, nnn, n take every value of their width (R93), so the operand types of `Instr` leave
nothing to check. What can be ill formed are the two things the outside hands in: the parameters (92_eei_decisions.md D21) and a
program (70_reset_and_hazards.md R274). -/

namespace Sys2Proof

/-- A frame attempts at least one instruction cycle ("default 10, at least 1", 92_eei_decisions.md D21). -/
def Config.Params.wf (p : Config.Params) : Bool := decide (1 ≤ p.cyclesPerFrame)

/-- A program that `load` accepts (70_reset_and_hazards.md R274: at most 3584 bytes). -/
def programFits (bytes : List Byte) : Bool := decide (bytes.length ≤ Config.progMax)

end Sys2Proof
end

