-- ==== Sys2Proof/Machine/HostEvents.lean ====
section
/-! DEFINITION. The host events (10_state.md R42) as functions on State, their delivery from the inbox, and the outputs the host
reads (10_state.md R41). -/

namespace Sys2Proof.Machine

/-- `load(bytes)`, 70_reset_and_hazards.md R274: the state after and the status returned; a program that is too long writes
nothing (60_exceptions.md R235). -/
def State.load (s : State) (bytes : List Byte) : State × LoadStatus :=
  if programFits bytes then
    ((s.memWriteList Config.progBase bytes).setPc (BitVec.ofNat 16 Config.progBase), .ok)
  else (s, .programTooLarge)

/-- A key-press edge: `set_key(k, true)` while KEY[k] is false (00_scope.md R11, 60_exceptions.md R246). -/
def State.keyEdge (s : State) (k : Nibble) (down : Bool) : Bool := down && !(s.key[k.toNat]'k.isLt)

/-- The end of a key wait: the key number into V[WAITREG], the event consumed, RUN back to Running (60_exceptions.md R246). -/
def State.resolveWait (s : State) (k : Nibble) : State :=
  { s.setV s.waitReg (k.setWidth 8) with keyEvt := ⟨false, 0⟩, run := .running }

/-- `set_key(k, down)`, 60_exceptions.md R246. -/
def State.setKey (s : State) (k : Nibble) (down : Bool) : State :=
  let t : State := { s with key := s.key.set k.toNat down k.isLt }
  if s.keyEdge k down then
    let u : State := { t with keyEvt := ⟨true, k⟩ }
    if decide (u.run = .awaitingKey) && decide (u.fault = .none) then u.resolveWait k else u
  else t

/-- `pause()`, 60_exceptions.md R247. -/
def State.pauseEvent (s : State) : State := if s.run = .running then { s with run := .paused } else s

/-- `run()`, 60_exceptions.md R248. -/
def State.runEvent (s : State) : State := if s.run = .paused then { s with run := .running } else s

/-- `step()`, 60_exceptions.md R249: in Paused without a fault, one instruction cycle and no tick; the cycle itself leaves RUN as
Paused unless it executes `Fx0A`. -/
def stepEvent (s : State) : Host.Outcome State Fault Refusal :=
  if decide (s.run = .paused) && decide (s.fault = .none) then instructionCycle s else .next s

/-- Deliver one host event between frames (10_state.md R42, 70_reset_and_hazards.md R280). `run_frame` begins a frame, whose other
cycles are the following steps (log 1). -/
def deliver (e : HostEvent) (s : State) : Host.Outcome State Fault Refusal :=
  match e with
  | .reset => .next s.resetEvent
  | .load bytes => .next ((s.load bytes).1.emit (.loaded (s.load bytes).2))
  | .runFrame => beginFrame s
  | .setKey k down => .next (s.setKey k down)
  | .pause => .next s.pauseEvent
  | .run => .next s.runEvent
  | .step => stepEvent s

/-- One step of the machine: the next cycle of the frame in progress; between frames, the next event of the inbox, and nothing at
all while the host is silent: the block has no internal source of activity (70_reset_and_hazards.md R286; log 1, 2, 3). -/
def machineStep (s : State) : Host.Outcome State Fault Refusal :=
  if s.frameLeft = 0 then
    match s.inbox with
    | [] => .next s
    | e :: rest => deliver e { s with inbox := rest }
  else continueFrame s

/-! ### Outputs (10_state.md R41) -/

/-- The display read out with the flat index y * 64 + x (10_state.md R41 (a), D23). -/
def State.displayBit (s : State) (index : Nat) : Bool := Display.pixel s.fb (index % 64) (index / 64)

/-- The sound-timer output (10_state.md R41 (b)). -/
def State.soundOutput (s : State) : Byte := s.st

/-- The number of a run-state (10_state.md R33, D15). -/
def RunState.code : RunState → Nat
  | .running => 0
  | .paused => 1
  | .awaitingKey => 2

/-- The code of the FAULT output (60_exceptions.md R230, D15). -/
def FaultLatch.code : FaultLatch → Nat
  | .none => 0
  | .stackOverflow => 1
  | .stackUnderflow => 2

/-- The code `load` returns (60_exceptions.md R230, D15). -/
def LoadStatus.code : LoadStatus → Nat
  | .ok => 0
  | .programTooLarge => 3

/-- The code of an output event; a diagnostic is the triple (4, op, addr) (60_exceptions.md R230, R236, D15, D19). -/
def HostOutput.code : HostOutput → Nat
  | .unknownOpcode _ _ => 4
  | .loaded status => status.code

end Sys2Proof.Machine
end

