-- ==== Sys2Proof/Machine/Step.lean ====
section
/-! DEFINITION. The step of the machine, and a state whose next step runs a given instruction. -/

namespace Sys2Proof.Machine

/-- One step (HostEvents.lean). -/
def step (s : State) : Host.Outcome State Fault Refusal := machineStep s

/-- `s` with the instruction word stored, big-endian, at PC and PC + 1 (20_memory.md R65), and with what a fetch needs: RUN =
Running, no fault latched, and a frame in progress, begun where none is. It stands for a program loaded from outside (`load`,
70_reset_and_hazards.md R274) and a `run_frame` raised by the host (log 11). -/
def State.withFetchWord (s : State) (nbits w : Nat) : State :=
  let t := s.memWriteList s.pc.toNat [wordHi (tableWord nbits w), wordLo (tableWord nbits w)]
  { t with
    run := .running
    fault := .none
    frameLeft := if s.frameLeft = 0 then max 1 s.params.cyclesPerFrame else s.frameLeft }

end Sys2Proof.Machine
end

