-- ==== Sys2Proof/Safety.lean ====
section
/-! DEFINITION. The terms claims are stated in: how a run stands (60_exceptions.md R254), the invariant of the state, what an
instruction leaves unchanged (40_cycle_and_control_flow.md R121), and the sprite as a set of pixels (43_display.md R202). -/

namespace Sys2Proof.Machine

/-! ### How a run stands -/

/-- A run stopped by a fault (60_exceptions.md R254). -/
def State.stoppedByFault (s : State) : Bool := decide (s.fault ≠ .none)

/-- A run waiting for a key (60_exceptions.md R254). -/
def State.waiting (s : State) : Bool := decide (s.run = .awaitingKey)

/-- A run idle at address a: Running, no fault, and the word at PC = a jumps to a (60_exceptions.md R254). -/
def State.idleAt (s : State) (a : Addr12) : Prop :=
  s.active = true ∧ s.pc = a.toWord ∧ decodeWord s.fetch = .ok (.jp a)

/-- A safe run: no fatal fault has been latched ("A faulted state is never a successful end of a run", 60_exceptions.md R233). -/
def State.safe (s : State) : Bool := !s.stoppedByFault

/-! ### The invariant -/

/-- What holds of the state after reset and after every step. -/
structure State.Inv (s : State) : Prop where
  /-- memory is in its canonical form: addresses strictly rising, below 4096, no entry equal to the reset image -/
  memory : Memory.wf s.params.font s.mem = true
  /-- a frame in progress is one of an active machine (60_exceptions.md R242) -/
  frame_active : s.frameLeft ≠ 0 → s.active = true
  /-- a frame in progress has no more cycles left than a frame has -/
  frame_bound : s.frameLeft ≤ s.params.cyclesPerFrame
  /-- "a fault cannot occur in AwaitingKey, so no wait is pending" (60_exceptions.md R233) -/
  fault_not_waiting : s.fault ≠ .none → s.run ≠ .awaitingKey
  /-- an overflow was raised on a full stack and nothing has run since (60_exceptions.md R231, R232) -/
  overflow_full : s.fault = .stackOverflow → s.sp = 16
  /-- an underflow was raised on an empty stack and nothing has run since (60_exceptions.md R234, R232) -/
  underflow_empty : s.fault = .stackUnderflow → s.sp = 0
  /-- KEYEVT is clear during a key wait (10_state.md R32) -/
  wait_no_event : s.run = .awaitingKey → s.keyEvt = ⟨false, 0⟩
  /-- an event that is not valid is the pair (0, 0) (10_state.md R32) -/
  event_cleared : s.keyEvt.valid = false → s.keyEvt.key = 0

/-! ### Frames -/

/-- The parts of the state, as a frame names them. -/
inductive Part where
  | reg (r : Nibble)
  | index
  | pc
  | stack
  | dt
  | st
  | display
  | keys
  | keyEvt
  | run
  | waitReg
  | fault
  | cell (a : Nat)
  | params
  | frameLeft
  | inbox
  | outbox
  | randCount
  deriving DecidableEq, Repr

/-- Every part of the state that is not listed is the same in both states. Memory is compared byte by byte, as it reads. -/
structure UnchangedExcept (w : List Part) (s t : State) : Prop where
  reg : ∀ r, Part.reg r ∉ w → t.getV r = s.getV r
  index : Part.index ∉ w → t.i = s.i
  pc : Part.pc ∉ w → t.pc = s.pc
  stack : Part.stack ∉ w → t.sp = s.sp ∧ t.stack = s.stack
  dt : Part.dt ∉ w → t.dt = s.dt
  st : Part.st ∉ w → t.st = s.st
  display : Part.display ∉ w → t.fb = s.fb
  keys : Part.keys ∉ w → t.key = s.key
  keyEvt : Part.keyEvt ∉ w → t.keyEvt = s.keyEvt
  run : Part.run ∉ w → t.run = s.run
  waitReg : Part.waitReg ∉ w → t.waitReg = s.waitReg
  fault : Part.fault ∉ w → t.fault = s.fault
  cell : ∀ a, a < Config.memSize → Part.cell a ∉ w → t.memRead a = s.memRead a
  params : Part.params ∉ w → t.params = s.params
  frameLeft : Part.frameLeft ∉ w → t.frameLeft = s.frameLeft
  inbox : Part.inbox ∉ w → t.inbox = s.inbox
  outbox : Part.outbox ∉ w → t.outbox = s.outbox
  randCount : Part.randCount ∉ w → t.randCount = s.randCount

/-- No register, VF included, and no fault latch changes: "Flags: none. Exceptions: none." of an instruction that writes no
register. -/
def NoFlagNoFault (s t : State) : Prop := (∀ r, t.getV r = s.getV r) ∧ t.fault = s.fault

/-- The cells that n bytes stored from I lie in, each address wrapped on its own (42_index_and_memory.md R186). -/
def State.storeCells (s : State) (n : Nat) : List Part := (List.range n).map fun k => Part.cell (s.iCell k)

/-- The registers V[0] to V[x]. -/
def regsThrough (x : Nibble) : List Part := (List.range (x.toNat + 1)).map fun k => Part.reg (BitVec.ofNat 4 k)

/-! ### A sprite as a set of pixels -/

/-- Whether a sprite of these rows drawn at (px, py) has a 1 bit on the pixel (x, y) of the grid: what 43_display.md R202 and R203
say of one pixel, without the loop. -/
def SpriteCovers (px py : Nat) (rows : List Byte) (x y : Nat) : Prop :=
  ∃ r c : Nat, c < 8 ∧ (∃ row, rows[r]? = some row ∧ row.getLsbD (7 - c) = true) ∧
    x = (px + c) % Config.dispW ∧ y = (py + r) % Config.dispH

end Sys2Proof.Machine
end

