-- ==== Sys2Proof/Certificates/Slice0/Obligations.lean ====
section
/-! DEFINITION. The statements for the provers. In every statement about `exec` the state `s` is the one after the PC advance of the
cycle (40_cycle_and_control_flow.md R120): `s.pc` is the address of the following instruction. A docstring that names a decision D<n>
says that the clause is the spec's own choice and no rule of the source; one that names a log entry says that it is the model's. -/

open Sys2Proof Sys2Proof.Machine

/-! ### Encoding -/

/-- Words written out from the formats of 30_encoding.md R92 and the selectors of R96 decode to the instructions they stand for, and
two near misses of R97 are rejected by name. -/
def Obligations.SampleWordsDecode : Prop :=
  decodeBytes [0x00, 0xE0] = .ok (.cls, []) ∧ decodeBytes [0x1A, 0xBC] = .ok (.jp 0xABC, []) ∧
  decodeBytes [0x3A, 0x42] = .ok (.seVxKk 0xA 0x42, []) ∧ decodeBytes [0x81, 0x2E] = .ok (.shl 1 2, []) ∧
  decodeBytes [0xDA, 0xB1] = .ok (.drw 0xA 0xB 1, []) ∧ decodeBytes [0xE1, 0x9E] = .ok (.skp 1, []) ∧
  decodeBytes [0xF2, 0x65] = .ok (.ldVxMem 2, []) ∧ decodeBytes [0x51, 0x21] = .error (.unrecognised 0x5121) ∧
  decodeBytes [0x01, 0xE0] = .error (.unrecognised 0x01E0)

/-- Decode and encode agree: every instruction, with every operand at every value, read back from its two bytes whatever follows them
(30_encoding.md R90 to R92). -/
def Obligations.DecodeOfEncodeIsTheInstruction : Prop :=
  ∀ (i : Instr) (rest : List Byte), decodeBytes (encodeBytes i ++ rest) = .ok (i, rest)

/-- The other direction: bytes that decode to an instruction are that instruction's own two bytes, so no bit of a word is dropped
(30_encoding.md R91, R92). -/
def Obligations.EncodeOfDecodeIsTheWord : Prop :=
  ∀ (hi lo : Byte) (rest rest' : List Byte) (i : Instr), decodeBytes (hi :: lo :: rest) = .ok (i, rest') →
    encodeBytes i = [hi, lo] ∧ rest' = rest

/-- 30_encoding.md R95: the decoder is exact match against the table of R96, and the rows exclude each other. -/
def Obligations.DecodingIsExactMatchOfOneTableRow : Prop :=
  ∀ op : Word,
    (∀ row ∈ opcodeTable, (∃ i, decodeWord op = .ok i ∧ i.mnemonic = row.mnemonic) ↔ op &&& row.mask = row.pattern) ∧
    (∀ row ∈ opcodeTable, ∀ row' ∈ opcodeTable,
      op &&& row.mask = row.pattern → op &&& row'.mask = row'.pattern → row = row')

/-- The list of 30_encoding.md R97: which words are no instruction, and that each is rejected under the one name. -/
def Obligations.UnrecognisedWordsAreTheListedOnes : Prop :=
  ∀ op : Word,
    (decodeWord op = .error (.unrecognised op) ↔
      (opFamily op = 0x0 ∧ op ≠ 0x00E0 ∧ op ≠ 0x00EE) ∨ (opFamily op = 0x5 ∧ opN op ≠ 0) ∨
      (opFamily op = 0x8 ∧ opN op ∈ [0x8#4, 0x9, 0xA, 0xB, 0xC, 0xD, 0xF]) ∨ (opFamily op = 0x9 ∧ opN op ≠ 0) ∨
      (opFamily op = 0xE ∧ opKk op ≠ 0x9E ∧ opKk op ≠ 0xA1) ∨
      (opFamily op = 0xF ∧ opKk op ∉ [0x07#8, 0x0A, 0x15, 0x18, 0x1E, 0x29, 0x33, 0x55, 0x65])) ∧
    ∀ r, decodeWord op = .error r → r = .unrecognised op

/-! ### Memory -/

/-- 20_memory.md R62 to R64 (D1): after bytes are stored from an address up, each address wrapped on its own, a read at the d-th
address after it gives the d-th byte, and every other cell reads as before. -/
def Obligations.StoredBytesReadBack : Prop :=
  ∀ (s : State) (a a' : Nat) (bs : List Byte), bs.length ≤ Config.memSize →
    (s.memWriteList a bs).memRead a' =
      (bs[(a' % Config.memSize + Config.memSize - a % Config.memSize) % Config.memSize]?).getD (s.memRead a')

/-- The model's canonical form (log 9): two memories in it that read alike at every address are the same data. -/
def Obligations.MemoriesThatReadAlikeAreEqual : Prop :=
  ∀ (font : Vector Byte 80) (m m' : List Host.Cell), Memory.wf font m = true → Memory.wf font m' = true →
    (∀ a, a < Config.memSize → Memory.read font m a = Memory.read font m' a) → m = m'

/-- 20_memory.md R65, R66: the word fetched at any PC, even or odd, is the byte at PC times 256 plus the byte at PC + 1, each address
reduced modulo 4096. -/
def Obligations.FetchIsBigEndianAtAnyAddress : Prop :=
  ∀ s : State, s.fetch.toNat =
    (Memory.read s.params.font s.mem (s.pc.toNat % 4096)).toNat * 256 +
      (Memory.read s.params.font s.mem ((s.pc.toNat + 1) % 4096)).toNat

/-- 20_memory.md R72 (D20): a store into the instruction stream is what the very next fetch reads: `Fx55` with x at least 1 and I
equal to the address of the following instruction makes V[0], V[1] the next word. -/
def Obligations.StoreIsSeenByTheNextFetch : Prop :=
  ∀ (s : State) (x : Nibble), 1 ≤ x.toNat → s.i = s.pc →
    ∃ t, exec (.ldMemVx x) s = .next t ∧ t.fetch = wordOfBytes (s.getV 0) (s.getV 1)

/-! ### The cycle, the step, the frame -/

/-- 40_cycle_and_control_flow.md R120: when the two bytes at PC decode to an instruction and the machine is active, the step is that
instruction's `exec` on the state with PC advanced by 2, followed by `afterCycle`: in a frame in progress, and in the step that delivers a
`run_frame` from the inbox, where the event leaves the inbox and the batch of `CYCLES_PER_FRAME` is set first (log 1, 3). -/
def Obligations.StepRunsTheDecodedInstruction : Prop :=
  ∀ (s : State) (i : Instr),
    decodeBytes [s.memRead s.pc.toNat, s.memRead (s.pc.toNat + 1)] = .ok (i, []) → s.active = true →
    (s.frameLeft ≠ 0 →
      step s = match exec i { s with pc := s.pc + 2 } with
        | .next t => .next t.afterCycle
        | .fault r => .fault r
        | .refused r => .refused r) ∧
    (∀ rest, s.frameLeft = 0 → s.inbox = .runFrame :: rest → s.params.cyclesPerFrame ≠ 0 →
      step s = match exec i { s with pc := s.pc + 2, inbox := rest, frameLeft := s.params.cyclesPerFrame } with
        | .next t => .next t.afterCycle
        | .fault r => .fault r
        | .refused r => .refused r)

/-- 10_state.md R42, 70_reset_and_hazards.md R280, R286 (D17, D22; log 2, 3, 4): between frames a step delivers the oldest event of the inbox
and nothing else. The event takes effect on the state without it; the status of `load` is put out; and while no event is raised nothing
happens at all, no instruction and no tick. What each event does is said of its own function. -/
def Obligations.StepDeliversTheNextHostEvent : Prop :=
  ∀ s : State, s.frameLeft = 0 →
    (s.inbox = [] → step s = .next s) ∧
    ∀ (e : HostEvent) (rest : List HostEvent), s.inbox = e :: rest →
      let u : State := { s with inbox := rest }
      (∃ t, step s = .next t ∧ t.inbox = rest) ∧
      (e = .reset → step s = .next u.resetEvent) ∧
      (∀ bytes, e = .load bytes →
        step s = .next { (u.load bytes).1 with outbox := s.outbox ++ [.loaded (u.load bytes).2] }) ∧
      (e = .runFrame → step s = beginFrame u) ∧
      (∀ k down, e = .setKey k down → step s = .next (u.setKey k down)) ∧
      (e = .pause → step s = .next u.pauseEvent) ∧
      (e = .run → step s = .next u.runEvent) ∧
      (e = .step → step s = stepEvent u)

/-- 60_exceptions.md R242 (D8): after a cycle the frame breaks off without a tick when the machine is no longer Running without a fault;
otherwise it counts the cycle, and after the last one decrements both timers that are not 0, once. `frameLeft` is the model's (log 1). -/
def Obligations.FrameCountsTicksOrBreaksAfterACycle : Prop :=
  ∀ s : State,
    (¬ (s.run = .running ∧ s.fault = .none) → s.afterCycle = { s with frameLeft := 0 }) ∧
    (s.run = .running → s.fault = .none → 1 < s.frameLeft → s.afterCycle = { s with frameLeft := s.frameLeft - 1 }) ∧
    (s.run = .running → s.fault = .none → s.frameLeft ≤ 1 →
      s.afterCycle.frameLeft = 0 ∧ s.afterCycle.dt.toNat = s.dt.toNat - 1 ∧ s.afterCycle.st.toNat = s.st.toNat - 1 ∧
      UnchangedExcept [.frameLeft, .dt, .st] s s.afterCycle)

/-- 40_cycle_and_control_flow.md R132, 60_exceptions.md R236 (D19): the cycle of a word that is no instruction emits one diagnostic with
the word and its address, leaves PC at the next word, and changes nothing else. -/
def Obligations.UnrecognisedWordIsLoggedAndPassedOver : Prop :=
  ∀ (s : State) (r : Reject), decodeWord s.fetch = .error r →
    ∃ t, instructionCycle s = .next t ∧ t.pc = s.pc + 2 ∧ t.outbox = s.outbox ++ [.unknownOpcode s.fetch s.pc] ∧
      UnchangedExcept [.pc, .outbox] s t

/-- 60_exceptions.md R242 (D8): from a state between frames whose next event is `run_frame`, at least one and at most `CYCLES_PER_FRAME`
steps (one step, where the frame has no cycles) are `run_frame()` as one transition, whatever happens in it: a key wait, a
fault, a machine suspended at the start. With no event behind it, `CYCLES_PER_FRAME` steps are (log 1, 2, 3). -/
def Obligations.StepsOfAFrameAreRunFrame : Prop :=
  ∀ (s : State) (rest : List HostEvent), s.frameLeft = 0 → s.inbox = .runFrame :: rest →
    (∃ k, 1 ≤ k ∧ k ≤ max 1 s.params.cyclesPerFrame ∧ Host.Core.run Sys2Proof.core k s = runFrame { s with inbox := rest }) ∧
    (rest = [] → s.params.cyclesPerFrame ≠ 0 →
      Host.Core.run Sys2Proof.core s.params.cyclesPerFrame s = runFrame { s with inbox := [] })

/-- 60_exceptions.md R242, R233, R251 (D5): in Paused, in AwaitingKey and under a fault, `run_frame` does nothing at all; a step that
delivers one only takes it out of the inbox (log 3). -/
def Obligations.SuspendedMachineIgnoresFrames : Prop :=
  ∀ s : State, (s.run ≠ .running ∨ s.fault ≠ .none) →
    runFrame s = .next s ∧ (∀ rest, s.frameLeft = 0 → s.inbox = .runFrame :: rest → step s = .next { s with inbox := rest })

/-- The state after reset meets the invariant (Safety.lean). -/
def Obligations.ResetMeetsTheInvariant : Prop := State.reset.Inv

/-- Every step from every state that meets the invariant answers a next state that meets it: memory stays canonical, a frame in progress
is one of an active machine, a fault is never latched during a key wait and names a stack that is full or empty, and KEYEVT is clear
during a wait (60_exceptions.md R233, R242, 10_state.md R32; D5, D10; log 1, 9). -/
def Obligations.EveryStepKeepsTheInvariant : Prop :=
  ∀ s : State, s.Inv → ∃ t, step s = .next t ∧ t.Inv

/-- 60_exceptions.md R233 (D5): under a latched fault every step answers a state with the same fault in which nothing has changed but the
keypad, KEYEVT, RUN (and the model's frame counter and inbox), unless the step delivers `load`, which still leaves the fault, or
`reset`, which alone clears it. -/
def Obligations.FaultStopsEverythingUntilReset : Prop :=
  ∀ s : State, s.fault ≠ .none →
    ∃ t, step s = .next t ∧
      ((s.frameLeft = 0 ∧ s.inbox.head? = some .reset ∧ t.fault = .none) ∨
       (t.fault = s.fault ∧ s.frameLeft = 0 ∧ ∃ bytes, s.inbox.head? = some (.load bytes)) ∨
       UnchangedExcept [.keys, .keyEvt, .run, .frameLeft, .inbox] s t)

/-- 60_exceptions.md R250 (D9, D10): RUN changes in a step only as the transition table says, and by the cause it names. -/
def Obligations.RunStateFollowsTheTransitionTable : Prop :=
  ∀ s t : State, step s = .next t → t.run ≠ s.run →
    (t.run = .awaitingKey ∧ (∃ x, decodeWord s.fetch = .ok (.ldVxK x)) ∧
      (s.run = .running ∨ (s.run = .paused ∧ s.frameLeft = 0 ∧ s.inbox.head? = some .step))) ∨
    (s.run = .running ∧ t.run = .paused ∧ s.frameLeft = 0 ∧ s.inbox.head? = some .pause) ∨
    (s.run = .paused ∧ t.run = .running ∧ s.frameLeft = 0 ∧ s.inbox.head? = some .run) ∨
    (s.run = .awaitingKey ∧ t.run = .running ∧ s.frameLeft = 0 ∧
      ∃ k : Nibble, s.inbox.head? = some (.setKey k true) ∧ s.key[k.toNat]'k.isLt = false) ∨
    (t.run = .running ∧ s.frameLeft = 0 ∧ s.inbox.head? = some .reset)

/-- 20_memory.md R67: a step changes a byte of memory only where the instruction at PC is a store that covers it, or the event delivered
is `load` of a program that covers it, or `reset`. -/
def Obligations.MemoryChangesOnlyByStoresLoadAndReset : Prop :=
  ∀ (s t : State) (a : Nat), a < Config.memSize → step s = .next t → t.memRead a ≠ s.memRead a →
    (∃ (x : Nibble) (k : Nat), decodeWord s.fetch = .ok (.ldBVx x) ∧ k < 3 ∧ a = s.iCell k) ∨
    (∃ (x : Nibble) (k : Nat), decodeWord s.fetch = .ok (.ldMemVx x) ∧ k ≤ x.toNat ∧ a = s.iCell k) ∨
    (s.frameLeft = 0 ∧
      ∃ bytes : List Byte, s.inbox.head? = some (.load bytes) ∧ bytes.length ≤ 3584 ∧ 0x200 ≤ a ∧ a < 0x200 + bytes.length) ∨
    (s.frameLeft = 0 ∧ s.inbox.head? = some .reset)

/-- 00_scope.md R7, 10_state.md R37: `CYCLES_PER_FRAME` and `FONT` are parameters, not state: no step changes the field that holds them
(log 5). -/
def Obligations.ParametersNeverChange : Prop := ∀ s t : State, step s = .next t → t.params = s.params

/-- 70_reset_and_hazards.md R280 (D22): while a frame is in progress no host event lands: the inbox and the keypad stay, and so does
every output but the diagnostics (log 3). -/
def Obligations.NoEventLandsInsideAFrame : Prop :=
  ∀ s : State, s.frameLeft ≠ 0 →
    ∃ t, step s = .next t ∧ t.inbox = s.inbox ∧ t.key = s.key ∧ t.frameLeft < s.frameLeft ∧
      (t.outbox = s.outbox ∨ t.outbox = s.outbox ++ [.unknownOpcode s.fetch s.pc])

/-- 44_keypad_and_timers.md R214, 60_exceptions.md R251 (D9, D10): in AwaitingKey without a fault, a step that delivers neither `reset`
nor `load` and is not the press of a key that is up leaves PC, every register, the timers and RUN unchanged: a key may go up, none goes
down (and the model's inbox and frame counter move). -/
def Obligations.WaitingChangesNothingWithoutAnEdge : Prop :=
  ∀ s : State, s.run = .awaitingKey → s.fault = .none → s.inbox.head? ≠ some .reset →
    (∀ bytes, s.inbox.head? ≠ some (.load bytes)) →
    (∀ k : Nibble, s.inbox.head? = some (.setKey k true) → s.key[k.toNat]'k.isLt = true) →
    ∃ t, step s = .next t ∧ (∀ k (hk : k < 16), t.key[k] = true → s.key[k] = true) ∧
      UnchangedExcept [.keys, .inbox, .frameLeft] s t

/-- 60_exceptions.md R254 (D5): an idle run stays idle at its address in every step that delivers no event but `run_frame` (within a frame,
at the start of one, or with no event raised), and such a step changes only the timers (and the model's inbox and frame counter). -/
def Obligations.IdleRunStaysIdle : Prop :=
  ∀ (s : State) (a : Addr12), s.idleAt a → (s.frameLeft ≠ 0 ∨ s.inbox = [] ∨ s.inbox.head? = some .runFrame) →
    ∃ t, step s = .next t ∧ t.idleAt a ∧ UnchangedExcept [.dt, .st, .frameLeft, .inbox] s t

/-! ### Control transfer -/

/-- 40_cycle_and_control_flow.md R123 and R130: `1nnn` sets PC to nnn exactly; `Bnnn` sets it to nnn + V[0], not masked to 12 bits; no
flag, no exception. -/
def Obligations.JumpsSetPc : Prop :=
  ∀ (s : State) (nnn : Addr12),
    (∃ t, exec (.jp nnn) s = .next t ∧ t.pc.toNat = nnn.toNat ∧ NoFlagNoFault s t) ∧
    (∃ t, exec (.jpV0 nnn) s = .next t ∧ t.pc.toNat = nnn.toNat + (s.getV 0).toNat ∧ NoFlagNoFault s t)

/-- 10_state.md R27: below the depth limit `push` stores at SP and counts, and touches nothing else; on the full stack it is StackOverflow,
which the one instruction that pushes latches, and nothing is stored. -/
def Obligations.PushStoresAtSpOrOverflows : Prop :=
  ∀ (s : State) (a : Word),
    (∀ h : s.sp.val < 16, ∃ t, s.push a = some t ∧ t.stack[s.sp.val]'h = a ∧ t.sp.val = s.sp.val + 1 ∧
      (∀ k (hk : k < 16), k ≠ s.sp.val → t.stack[k] = s.stack[k]) ∧ UnchangedExcept [.stack] s t) ∧
    (s.sp.val = 16 → s.push a = none ∧
      ∀ nnn, ∃ t, exec (.call nnn) s = .next t ∧ t.fault = .stackOverflow ∧ t.sp = s.sp ∧ t.stack = s.stack)

/-- 40_cycle_and_control_flow.md R124 below the depth limit: `2nnn` pushes the address of the following instruction and goes to nnn. -/
def Obligations.CallPushesTheReturnAddress : Prop :=
  ∀ (s : State) (nnn : Addr12) (h : s.sp.val < 16),
    ∃ t, exec (.call nnn) s = .next t ∧ t.pc.toNat = nnn.toNat ∧ t.sp.val = s.sp.val + 1 ∧ t.stack[s.sp.val]'h = s.pc ∧
      (∀ k (hk : k < 16), k ≠ s.sp.val → t.stack[k] = s.stack[k]) ∧ NoFlagNoFault s t

/-- 40_cycle_and_control_flow.md R122 on a stack that is not empty: `00EE` takes the top entry, unmasked, into PC; the vacated slot keeps
its value (10_state.md R28, D18). -/
def Obligations.ReturnPopsTheTopIntoPc : Prop :=
  ∀ s : State, 0 < s.sp.val →
    ∃ t, exec .ret s = .next t ∧ s.stack[s.sp.val - 1]? = some t.pc ∧ t.sp.val = s.sp.val - 1 ∧ t.stack = s.stack ∧ NoFlagNoFault s t

/-- The source's test quoted in 40_cycle_and_control_flow.md R122: `2nnn` followed by `00EE` restores PC to the instruction after the call
and leaves SP as it was. -/
def Obligations.CallThenReturnComesBack : Prop :=
  ∀ (s : State) (nnn : Addr12), s.sp.val < 16 →
    ∃ t u, exec (.call nnn) s = .next t ∧ exec .ret t.advancePc = .next u ∧ u.pc = s.pc ∧ u.sp = s.sp ∧
      UnchangedExcept [.stack] s u

/-- 60_exceptions.md R231, R232, R234 (D5, D6): a cycle that calls with SP = 16 or returns with SP = 0 latches its fault and leaves every
other piece of state as before the cycle, PC included. -/
def Obligations.StackFaultsLatchAndUndoTheCycle : Prop :=
  ∀ s : State,
    (∀ nnn, decodeWord s.fetch = .ok (.call nnn) → s.sp.val = 16 →
      ∃ t, instructionCycle s = .next t ∧ t.fault = .stackOverflow ∧ UnchangedExcept [.fault] s t) ∧
    (decodeWord s.fetch = .ok .ret → s.sp.val = 0 →
      ∃ t, instructionCycle s = .next t ∧ t.fault = .stackUnderflow ∧ UnchangedExcept [.fault] s t)

/-- 40_cycle_and_control_flow.md R126, R127: the skips on an immediate. -/
def Obligations.ImmediateSkips : Prop :=
  ∀ (s : State) (x : Nibble) (kk : Byte),
    (∃ t, exec (.seVxKk x kk) s = .next t ∧ (s.getV x = kk → t.pc = s.pc + 2) ∧ (s.getV x ≠ kk → t.pc = s.pc) ∧
      NoFlagNoFault s t) ∧
    (∃ t, exec (.sneVxKk x kk) s = .next t ∧ (s.getV x ≠ kk → t.pc = s.pc + 2) ∧ (s.getV x = kk → t.pc = s.pc) ∧
      NoFlagNoFault s t)

/-- 40_cycle_and_control_flow.md R128, R129: the skips on two registers, "skip if `Vx == Vy`" and "skip if `Vx != Vy`". -/
def Obligations.RegisterSkips : Prop :=
  ∀ (s : State) (x y : Nibble),
    (∃ t, exec (.seVxVy x y) s = .next t ∧ (s.getV x = s.getV y → t.pc = s.pc + 2) ∧
      (s.getV x ≠ s.getV y → t.pc = s.pc) ∧ NoFlagNoFault s t) ∧
    (∃ t, exec (.sneVxVy x y) s = .next t ∧ (s.getV x ≠ s.getV y → t.pc = s.pc + 2) ∧
      (s.getV x = s.getV y → t.pc = s.pc) ∧ NoFlagNoFault s t)

/-- 44_keypad_and_timers.md R210, R211, R212 (D7): the key skips, on the key whose number is the value of V[x]; a number above 15 is no
key and never down. -/
def Obligations.KeySkips : Prop :=
  ∀ (s : State) (x : Nibble),
    let down : Prop := ∃ k : Nibble, (s.getV x).toNat = k.toNat ∧ s.key[k.toNat]'k.isLt = true
    (∃ t, exec (.skp x) s = .next t ∧ (down → t.pc = s.pc + 2) ∧ (¬ down → t.pc = s.pc) ∧ NoFlagNoFault s t) ∧
    (∃ t, exec (.sknp x) s = .next t ∧ (¬ down → t.pc = s.pc + 2) ∧ (down → t.pc = s.pc) ∧ NoFlagNoFault s t)

/-! ### Load, logic, arithmetic -/

/-- 41_load_and_alu.md R151, R152: the immediate load and the immediate add, modulo 256, with no flag: every register but Vx, VF included,
is unchanged. -/
def Obligations.ImmediateLoadAndAdd : Prop :=
  ∀ (s : State) (x : Nibble) (kk : Byte),
    (∃ t, exec (.ldVxKk x kk) s = .next t ∧ t.getV x = kk ∧ (∀ r, r ≠ x → t.getV r = s.getV r) ∧ t.fault = s.fault) ∧
    (∃ t, exec (.addVxKk x kk) s = .next t ∧ (t.getV x).toNat = ((s.getV x).toNat + kk.toNat) % 256 ∧
      (∀ r, r ≠ x → t.getV r = s.getV r) ∧ t.fault = s.fault)

/-- 41_load_and_alu.md R153 to R156: move, or, and, exclusive or, bit by bit, with no flag: every register but Vx, VF included, is
unchanged. -/
def Obligations.MoveAndLogic : Prop :=
  ∀ (s : State) (x y : Nibble),
    (∃ t, exec (.ldVxVy x y) s = .next t ∧ t.getV x = s.getV y ∧ (∀ r, r ≠ x → t.getV r = s.getV r) ∧ t.fault = s.fault) ∧
    (∃ t, exec (.or x y) s = .next t ∧ (∀ k, (t.getV x).getLsbD k = ((s.getV x).getLsbD k || (s.getV y).getLsbD k)) ∧
      (∀ r, r ≠ x → t.getV r = s.getV r) ∧ t.fault = s.fault) ∧
    (∃ t, exec (.and x y) s = .next t ∧ (∀ k, (t.getV x).getLsbD k = ((s.getV x).getLsbD k && (s.getV y).getLsbD k)) ∧
      (∀ r, r ≠ x → t.getV r = s.getV r) ∧ t.fault = s.fault) ∧
    (∃ t, exec (.xor x y) s = .next t ∧ (∀ k, (t.getV x).getLsbD k = ((s.getV x).getLsbD k ^^ (s.getV y).getLsbD k)) ∧
      (∀ r, r ≠ x → t.getV r = s.getV r) ∧ t.fault = s.fault)

/-- 41_load_and_alu.md R157, R158, R160 with the order of R150 (D4): sum and carry, the two differences and their strict comparisons, all
from the operands as they stood before any write; with x = 15 the result stands in VF, otherwise VF is the flag. -/
def Obligations.AddAndSubtractWithFlag : Prop :=
  ∀ (s : State) (x y : Nibble),
    let a := (s.getV x).toNat
    let b := (s.getV y).toNat
    (∃ t, exec (.addVxVy x y) s = .next t ∧ (t.getV x).toNat = (a + b) % 256 ∧
      (x ≠ 15 → t.getV 15 = if a + b > 255 then 1 else 0) ∧ (∀ r, r ≠ x → r ≠ 15 → t.getV r = s.getV r)) ∧
    (∃ t, exec (.sub x y) s = .next t ∧ (t.getV x).toNat = (256 + a - b) % 256 ∧
      (x ≠ 15 → t.getV 15 = if a > b then 1 else 0) ∧ (∀ r, r ≠ x → r ≠ 15 → t.getV r = s.getV r)) ∧
    (∃ t, exec (.subn x y) s = .next t ∧ (t.getV x).toNat = (256 + b - a) % 256 ∧
      (x ≠ 15 → t.getV 15 = if b > a then 1 else 0) ∧ (∀ r, r ≠ x → r ≠ 15 → t.getV r = s.getV r))

/-- 41_load_and_alu.md R159, R161 with the order of R150 (D4): the shifts of Vx by one, whatever y is, VF the bit shifted out; with
x = 15 the result stands in VF. -/
def Obligations.ShiftsWithFlag : Prop :=
  ∀ (s : State) (x y : Nibble),
    let a := (s.getV x).toNat
    (∃ t, exec (.shr x y) s = .next t ∧ (t.getV x).toNat = a / 2 ∧
      (x ≠ 15 → (t.getV 15).toNat = a % 2) ∧ (∀ r, r ≠ x → r ≠ 15 → t.getV r = s.getV r)) ∧
    (∃ t, exec (.shl x y) s = .next t ∧ (t.getV x).toNat = 2 * a % 256 ∧
      (x ≠ 15 → (t.getV 15).toNat = a / 128) ∧ (∀ r, r ≠ x → r ≠ 15 → t.getV r = s.getV r))

/-- 41_load_and_alu.md R163 (D14): `Cxkk` writes the next random byte masked by kk, so bits where kk has 0 are 0, and draws one byte; the
byte is a free value (log 8). -/
def Obligations.RandomByteIsMasked : Prop :=
  ∀ (s : State) (x : Nibble) (kk : Byte),
    ∃ t, exec (.rnd x kk) s = .next t ∧ t.getV x = Config.randByte s.randCount &&& kk ∧
      (∀ k, kk.getLsbD k = false → (t.getV x).getLsbD k = false) ∧ t.randCount = s.randCount + 1 ∧
      (∀ r, r ≠ x → t.getV r = s.getV r)

/-! ### Index register and memory -/

/-- 42_index_and_memory.md R180 to R182: the three writes of I, none of which masks it to 12 bits or writes a flag. -/
def Obligations.IndexRegisterWrites : Prop :=
  ∀ (s : State) (x : Nibble) (nnn : Addr12),
    (∃ t, exec (.ldINnn nnn) s = .next t ∧ t.i.toNat = nnn.toNat ∧ NoFlagNoFault s t) ∧
    (∃ t, exec (.addIVx x) s = .next t ∧ t.i.toNat = (s.i.toNat + (s.getV x).toNat) % 65536 ∧ NoFlagNoFault s t) ∧
    (∃ t, exec (.ldFVx x) s = .next t ∧ t.i.toNat = (s.getV x).toNat * 5 ∧ NoFlagNoFault s t)

/-- 42_index_and_memory.md R183: `Fx33` stores the three decimal digits of Vx, one a byte, from I up, each address wrapped; every other
byte, I and the registers are unchanged. -/
def Obligations.BcdStoresThreeDigits : Prop :=
  ∀ (s : State) (x : Nibble),
    ∃ t, exec (.ldBVx x) s = .next t ∧
      (t.memRead s.i.toNat).toNat = (s.getV x).toNat / 100 ∧
      (t.memRead (s.i.toNat + 1)).toNat = (s.getV x).toNat / 10 % 10 ∧
      (t.memRead (s.i.toNat + 2)).toNat = (s.getV x).toNat % 10 ∧
      (∀ a, a < Config.memSize → (∀ k, k < 3 → a ≠ s.iCell k) → t.memRead a = s.memRead a) ∧
      t.i = s.i ∧ NoFlagNoFault s t

/-- 42_index_and_memory.md R184: `Fx55` stores V[0] to V[x], both included, from I up, each address wrapped; every other byte, I and the
registers are unchanged. -/
def Obligations.RegistersAreStoredFromI : Prop :=
  ∀ (s : State) (x : Nibble),
    ∃ t, exec (.ldMemVx x) s = .next t ∧
      (∀ r : Nibble, r.toNat ≤ x.toNat → t.memRead (s.i.toNat + r.toNat) = s.getV r) ∧
      (∀ a, a < Config.memSize → (∀ k, k ≤ x.toNat → a ≠ s.iCell k) → t.memRead a = s.memRead a) ∧
      t.i = s.i ∧ NoFlagNoFault s t

/-- 42_index_and_memory.md R185: `Fx65` loads V[0] to V[x], both included, from I up, each address wrapped; the registers above x, I and
memory are unchanged. -/
def Obligations.RegistersAreLoadedFromI : Prop :=
  ∀ (s : State) (x : Nibble),
    ∃ t, exec (.ldVxMem x) s = .next t ∧
      (∀ r : Nibble, r.toNat ≤ x.toNat → t.getV r = s.memRead (s.i.toNat + r.toNat)) ∧
      (∀ r : Nibble, x.toNat < r.toNat → t.getV r = s.getV r) ∧
      (∀ a, t.memRead a = s.memRead a) ∧ t.i = s.i ∧ t.fault = s.fault

/-! ### Display -/

/-- 43_display.md R200: `00E0` turns every pixel off and nothing but FB changes. -/
def Obligations.ClearTurnsEveryPixelOff : Prop :=
  ∀ s : State, ∃ t, exec .cls s = .next t ∧ (∀ x y, Display.pixel t.fb x y = false) ∧ UnchangedExcept [.display] s t

/-- 43_display.md R201 to R203 without their loops: `Dxyn` flips exactly the pixels that the sprite of n bytes at I covers, drawn at
(Vx, Vy) with both coordinates wrapping, and sets VF to 1 exactly when one of them was lit, else to 0; I and the other registers are
unchanged. -/
def Obligations.DrawXorsTheSprite : Prop :=
  ∀ (s : State) (x y n : Nibble),
    let covers := SpriteCovers (s.getV x).toNat (s.getV y).toNat (s.memReadList (s.iAddr 0) n.toNat)
    ∃ t, exec (.drw x y n) s = .next t ∧
      (∀ X Y, X < Config.dispW → Y < Config.dispH → covers X Y → Display.pixel t.fb X Y = !Display.pixel s.fb X Y) ∧
      (∀ X Y, X < Config.dispW → Y < Config.dispH → ¬ covers X Y → Display.pixel t.fb X Y = Display.pixel s.fb X Y) ∧
      ((∃ X Y, X < Config.dispW ∧ Y < Config.dispH ∧ covers X Y ∧ Display.pixel s.fb X Y = true) → t.getV 15 = 1) ∧
      ((∀ X Y, X < Config.dispW → Y < Config.dispH → covers X Y → Display.pixel s.fb X Y = false) → t.getV 15 = 0) ∧
      (∀ r, r ≠ 15 → t.getV r = s.getV r) ∧ t.i = s.i ∧ t.fault = s.fault

/-- 43_display.md R202, R203: the same sprite of at most 15 rows drawn twice at the same place restores the display, whatever it was; and
where the first draw met no lit pixel, the second reports a collision exactly when the sprite has a 1 bit. R204 (c) says the second
clause of every display, which R202 does not give when every covered pixel was lit at first (log 13). -/
def Obligations.DrawingTwiceRestoresTheDisplay : Prop :=
  ∀ (fb : Display) (px py : Nat) (rows : List Byte), rows.length ≤ 15 →
    (blit (blit fb px py rows).1 px py rows).1 = fb ∧
    ((blit fb px py rows).2 = false →
      ((blit (blit fb px py rows).1 px py rows).2 = true ↔ ∃ row ∈ rows, row ≠ 0))

/-! ### Keypad, timers and host events -/

/-- 44_keypad_and_timers.md R213, R215, R216: the timer read and the two timer writes. -/
def Obligations.TimerTransfers : Prop :=
  ∀ (s : State) (x : Nibble),
    (∃ t, exec (.ldVxDt x) s = .next t ∧ t.getV x = s.dt ∧ t.dt = s.dt ∧ (∀ r, r ≠ x → t.getV r = s.getV r)) ∧
    (∃ t, exec (.ldDtVx x) s = .next t ∧ t.dt = s.getV x ∧ t.st = s.st ∧ NoFlagNoFault s t) ∧
    (∃ t, exec (.ldStVx x) s = .next t ∧ t.st = s.getV x ∧ t.dt = s.dt ∧ NoFlagNoFault s t)

/-- 44_keypad_and_timers.md R214 (D10): `Fx0A` records its register, forgets an earlier edge and suspends the machine; PC stays past it
and no register is written. -/
def Obligations.KeyWaitSuspendsTheMachine : Prop :=
  ∀ (s : State) (x : Nibble),
    ∃ t, exec (.ldVxK x) s = .next t ∧ t.run = .awaitingKey ∧ t.waitReg = x ∧ t.keyEvt = ⟨false, 0⟩ ∧ t.pc = s.pc ∧
      NoFlagNoFault s t

/-- 60_exceptions.md R243: a tick takes 1 from each timer that is above 0, leaves one at 0, and touches nothing else. -/
def Obligations.TickCountsDownToZero : Prop :=
  ∀ s : State, s.tick.dt.toNat = s.dt.toNat - 1 ∧ s.tick.st.toNat = s.st.toNat - 1 ∧ UnchangedExcept [.dt, .st] s s.tick

/-- 60_exceptions.md R246 (D10, D25): `set_key` always records the key; a press of a key that is up ends a pending wait, storing the key
number and making the machine Running with KEYEVT clear, and otherwise sets KEYEVT; a release, or a press of a key already down, does no
more than record the key. -/
def Obligations.SetKeyResolvesAWaitOnAnEdge : Prop :=
  ∀ (s : State) (k : Nibble) (down : Bool),
    let edge : Prop := down = true ∧ s.key[k.toNat]'k.isLt = false
    let t := s.setKey k down
    (∀ j : Nibble, t.key[j.toNat]'j.isLt = if j = k then down else s.key[j.toNat]'j.isLt) ∧
    (edge → s.run = .awaitingKey → s.fault = .none →
      (t.getV s.waitReg).toNat = k.toNat ∧ (∀ r, r ≠ s.waitReg → t.getV r = s.getV r) ∧ t.run = .running ∧
      t.keyEvt = ⟨false, 0⟩ ∧ UnchangedExcept [.keys, .reg s.waitReg, .run, .keyEvt] s t) ∧
    (edge → ¬ (s.run = .awaitingKey ∧ s.fault = .none) →
      t.keyEvt = ⟨true, k⟩ ∧ UnchangedExcept [.keys, .keyEvt] s t) ∧
    (¬ edge → UnchangedExcept [.keys] s t)

/-- 60_exceptions.md R247, R248 (D9): `pause` takes Running to Paused, `run` takes Paused to Running, neither does anything else. -/
def Obligations.PauseAndRunMoveRunOnly : Prop :=
  ∀ s : State,
    s.pauseEvent.run = (if s.run = .running then .paused else s.run) ∧ UnchangedExcept [.run] s s.pauseEvent ∧
    s.runEvent.run = (if s.run = .paused then .running else s.run) ∧ UnchangedExcept [.run] s s.runEvent

/-- 60_exceptions.md R249 (D9): `step()` in Paused without a fault is one instruction cycle, after which RUN is Paused again unless the
instruction was `Fx0A`, and DT moves only if it was `Fx15`, ST only if it was `Fx18`: no tick; in any other state it does nothing. -/
def Obligations.SingleStepRunsOneCycleWithoutATick : Prop :=
  ∀ s : State,
    (s.run = .paused → s.fault = .none →
      ∃ t, stepEvent s = .next t ∧ instructionCycle s = .next t ∧
        (t.run = .paused ∨ (t.run = .awaitingKey ∧ ∃ x, decodeWord s.fetch = .ok (.ldVxK x))) ∧
        ((∀ x, decodeWord s.fetch ≠ .ok (.ldDtVx x)) → t.dt = s.dt) ∧
        ((∀ x, decodeWord s.fetch ≠ .ok (.ldStVx x)) → t.st = s.st)) ∧
    (¬ (s.run = .paused ∧ s.fault = .none) → stepEvent s = .next s)

/-- 70_reset_and_hazards.md R274 (D13): a program of at most 3584 bytes is copied verbatim from 0x200, PC set to 0x200, and nothing else
changes; a longer one writes nothing and is reported. -/
def Obligations.LoadCopiesTheProgramOrNothing : Prop :=
  ∀ (s : State) (bytes : List Byte),
    (bytes.length ≤ 3584 →
      (s.load bytes).2 = .ok ∧ (s.load bytes).1.pc = 0x200 ∧
      (∀ k (hk : k < bytes.length), (s.load bytes).1.memRead (0x200 + k) = bytes[k]) ∧
      (∀ a, a < Config.memSize → a < 0x200 ∨ 0x200 + bytes.length ≤ a → (s.load bytes).1.memRead a = s.memRead a) ∧
      UnchangedExcept (.pc :: (List.range bytes.length).map fun k => .cell (0x200 + k)) s (s.load bytes).1) ∧
    (3584 < bytes.length → (s.load bytes).2 = .programTooLarge ∧ (s.load bytes).1 = s)

/-- 70_reset_and_hazards.md R270 (D2, D12): `reset` gives every piece of the block's state its reset value whatever the state was, for
any FONT. The parameters stay (log 5, 12). The model's initial state is one that `reset` leaves as it is. -/
def Obligations.ResetRestoresEveryPiece : Prop :=
  State.reset.resetEvent = State.reset ∧ ∀ s : State,
    let t := s.resetEvent
    (∀ r, t.getV r = 0) ∧ t.i = 0 ∧ t.pc = 0x200 ∧ t.sp = 0 ∧ (∀ k (hk : k < 16), t.stack[k] = 0) ∧ t.dt = 0 ∧ t.st = 0 ∧
    (∀ x y, Display.pixel t.fb x y = false) ∧ (∀ k (hk : k < 16), t.key[k] = false) ∧ t.keyEvt = ⟨false, 0⟩ ∧
    t.waitReg = 0 ∧ t.run = .running ∧ t.fault = .none ∧
    (∀ a (h : a < 80), t.memRead a = s.params.font[a]) ∧ (∀ a, 80 ≤ a → a < Config.memSize → t.memRead a = 0) ∧
    t.params = s.params

/-! ### What each instruction leaves unchanged (40_cycle_and_control_flow.md R121, D11) -/

/-- Jumps and skips change PC alone; a call or a return that does not fault changes PC and the stack alone. -/
def Obligations.FrameOfControlTransfers : Prop :=
  ∀ (s : State) (x y : Nibble) (kk : Byte) (nnn : Addr12),
    (∀ i ∈ [Instr.jp nnn, .jpV0 nnn, .seVxKk x kk, .sneVxKk x kk, .seVxVy x y, .sneVxVy x y, .skp x, .sknp x],
      ∃ t, exec i s = .next t ∧ UnchangedExcept [.pc] s t) ∧
    (s.sp.val < 16 → ∃ t, exec (.call nnn) s = .next t ∧ UnchangedExcept [.pc, .stack] s t) ∧
    (0 < s.sp.val → ∃ t, exec .ret s = .next t ∧ UnchangedExcept [.pc, .stack] s t)

/-- The loads, moves, logic and the timer read change Vx alone; the flag-writing five change Vx and VF; the random load changes Vx and
the count of draws. PC stays at the following instruction. -/
def Obligations.FrameOfRegisterInstructions : Prop :=
  ∀ (s : State) (x y : Nibble) (kk : Byte),
    (∀ i ∈ [Instr.ldVxKk x kk, .addVxKk x kk, .ldVxVy x y, .or x y, .and x y, .xor x y, .ldVxDt x],
      ∃ t, exec i s = .next t ∧ UnchangedExcept [.reg x] s t) ∧
    (∀ i ∈ [Instr.addVxVy x y, .sub x y, .shr x y, .subn x y, .shl x y],
      ∃ t, exec i s = .next t ∧ UnchangedExcept [.reg x, .reg 15] s t) ∧
    (∃ t, exec (.rnd x kk) s = .next t ∧ UnchangedExcept [.reg x, .randCount] s t)

/-- The writes of I change I alone; the register load changes V[0] to V[x] alone, and no byte of memory. -/
def Obligations.FrameOfIndexInstructions : Prop :=
  ∀ (s : State) (x : Nibble) (nnn : Addr12),
    (∀ i ∈ [Instr.ldINnn nnn, .addIVx x, .ldFVx x], ∃ t, exec i s = .next t ∧ UnchangedExcept [.index] s t) ∧
    (∃ t, exec (.ldVxMem x) s = .next t ∧ UnchangedExcept (regsThrough x) s t)

/-- The two storing instructions change the bytes they store to, 3 from I and x + 1 from I, each address wrapped, and nothing else. -/
def Obligations.FrameOfStores : Prop :=
  ∀ (s : State) (x : Nibble),
    (∃ t, exec (.ldBVx x) s = .next t ∧ UnchangedExcept (s.storeCells 3) s t) ∧
    (∃ t, exec (.ldMemVx x) s = .next t ∧ UnchangedExcept (s.storeCells (x.toNat + 1)) s t)

/-- The draw changes the display and VF alone, and no byte of memory. -/
def Obligations.FrameOfDraw : Prop :=
  ∀ (s : State) (x y n : Nibble), ∃ t, exec (.drw x y n) s = .next t ∧ UnchangedExcept [.display, .reg 15] s t

/-- The timer writes change their timer alone; the key wait changes RUN, WAITREG and KEYEVT alone. -/
def Obligations.FrameOfTimerWritesAndKeyWait : Prop :=
  ∀ (s : State) (x : Nibble),
    (∃ t, exec (.ldDtVx x) s = .next t ∧ UnchangedExcept [.dt] s t) ∧
    (∃ t, exec (.ldStVx x) s = .next t ∧ UnchangedExcept [.st] s t) ∧
    (∃ t, exec (.ldVxK x) s = .next t ∧ UnchangedExcept [.run, .waitReg, .keyEvt] s t)

/-- 10_state.md R38 (D11): an instruction that changes VF is one of the six flag writers, or names VF as its destination. -/
def Obligations.VfIsWrittenOnlyByFlagWritersOrByName : Prop :=
  ∀ (i : Instr) (s t : State), exec i s = .next t → t.getV 15 ≠ s.getV 15 →
    (∃ x y, i ∈ [Instr.addVxVy x y, .sub x y, .shr x y, .subn x y, .shl x y]) ∨ (∃ x y n, i = .drw x y n) ∨
    (∃ kk y, i ∈ [Instr.ldVxKk 15 kk, .addVxKk 15 kk, .rnd 15 kk, .ldVxVy 15 y, .or 15 y, .and 15 y, .xor 15 y, .ldVxDt 15,
      .ldVxMem 15])
end

