-- ==== Sys2Proof/Laws/Decode.lean ====
section
/-! SUPPORT. The fields of a word assembled in each format of 30_encoding.md R92, and the two bytes of a word. -/

namespace Sys2Proof


/-! ### Format NNN -/

theorem opFamily_nnn (f : Nibble) (nnn : Addr12) : opFamily (f ++ nnn) = f := by
  change BitVec.extractLsb' 12 4 (f ++ nnn : BitVec (4 + 12)) = f
  apply BitVec.eq_of_getLsbD_eq
  intro k hk
  simp only [BitVec.getLsbD_extractLsb', BitVec.getLsbD_append]
  interval_cases k <;> simp

theorem opNnn_nnn (f : Nibble) (nnn : Addr12) : opNnn (f ++ nnn) = nnn := by
  change BitVec.extractLsb' 0 12 (f ++ nnn : BitVec (4 + 12)) = nnn
  apply BitVec.eq_of_getLsbD_eq
  intro k hk
  simp only [BitVec.getLsbD_extractLsb', BitVec.getLsbD_append]
  interval_cases k <;> simp

/-! ### Format XKK, and XSS with its selector as kk -/

theorem opFamily_xkk (f x : Nibble) (kk : Byte) : opFamily (f ++ x ++ kk) = f := by
  change BitVec.extractLsb' 12 4 (f ++ x ++ kk : BitVec (4 + 4 + 8)) = f
  apply BitVec.eq_of_getLsbD_eq
  intro k hk
  simp only [BitVec.getLsbD_extractLsb', BitVec.getLsbD_append]
  interval_cases k <;> simp

theorem opX_xkk (f x : Nibble) (kk : Byte) : opX (f ++ x ++ kk) = x := by
  change BitVec.extractLsb' 8 4 (f ++ x ++ kk : BitVec (4 + 4 + 8)) = x
  apply BitVec.eq_of_getLsbD_eq
  intro k hk
  simp only [BitVec.getLsbD_extractLsb', BitVec.getLsbD_append]
  interval_cases k <;> simp

theorem opKk_xkk (f x : Nibble) (kk : Byte) : opKk (f ++ x ++ kk) = kk := by
  change BitVec.extractLsb' 0 8 (f ++ x ++ kk : BitVec (4 + 4 + 8)) = kk
  apply BitVec.eq_of_getLsbD_eq
  intro k hk
  simp only [BitVec.getLsbD_extractLsb', BitVec.getLsbD_append]
  interval_cases k <;> simp

/-! ### Formats XY and XYN -/

theorem opFamily_xyn (f x y n : Nibble) : opFamily (f ++ x ++ y ++ n) = f := by
  change BitVec.extractLsb' 12 4 (f ++ x ++ y ++ n : BitVec (4 + 4 + 4 + 4)) = f
  apply BitVec.eq_of_getLsbD_eq
  intro k hk
  simp only [BitVec.getLsbD_extractLsb', BitVec.getLsbD_append]
  interval_cases k <;> simp

theorem opX_xyn (f x y n : Nibble) : opX (f ++ x ++ y ++ n) = x := by
  change BitVec.extractLsb' 8 4 (f ++ x ++ y ++ n : BitVec (4 + 4 + 4 + 4)) = x
  apply BitVec.eq_of_getLsbD_eq
  intro k hk
  simp only [BitVec.getLsbD_extractLsb', BitVec.getLsbD_append]
  interval_cases k <;> simp

theorem opY_xyn (f x y n : Nibble) : opY (f ++ x ++ y ++ n) = y := by
  change BitVec.extractLsb' 4 4 (f ++ x ++ y ++ n : BitVec (4 + 4 + 4 + 4)) = y
  apply BitVec.eq_of_getLsbD_eq
  intro k hk
  simp only [BitVec.getLsbD_extractLsb', BitVec.getLsbD_append]
  interval_cases k <;> simp

theorem opN_xyn (f x y n : Nibble) : opN (f ++ x ++ y ++ n) = n := by
  change BitVec.extractLsb' 0 4 (f ++ x ++ y ++ n : BitVec (4 + 4 + 4 + 4)) = n
  apply BitVec.eq_of_getLsbD_eq
  intro k hk
  simp only [BitVec.getLsbD_extractLsb', BitVec.getLsbD_append]
  interval_cases k <;> simp

/-! ### A word and its two bytes -/

theorem wordOfBytes_split (op : Word) : wordOfBytes (wordHi op) (wordLo op) = op := by
  apply BitVec.eq_of_getLsbD_eq
  intro k hk
  change (BitVec.extractLsb' 8 8 op ++ BitVec.extractLsb' 0 8 op : BitVec (8 + 8)).getLsbD k = _
  simp only [BitVec.getLsbD_append, BitVec.getLsbD_extractLsb']
  interval_cases k <;> simp

theorem wordHi_wordOfBytes (hi lo : Byte) : wordHi (wordOfBytes hi lo) = hi := by
  apply BitVec.eq_of_getLsbD_eq
  intro k hk
  change (BitVec.extractLsb' 8 8 (hi ++ lo : BitVec (8 + 8))).getLsbD k = _
  simp only [BitVec.getLsbD_append, BitVec.getLsbD_extractLsb']
  interval_cases k <;> simp

theorem wordLo_wordOfBytes (hi lo : Byte) : wordLo (wordOfBytes hi lo) = lo := by
  apply BitVec.eq_of_getLsbD_eq
  intro k hk
  change (BitVec.extractLsb' 0 8 (hi ++ lo : BitVec (8 + 8))).getLsbD k = _
  simp only [BitVec.getLsbD_append, BitVec.getLsbD_extractLsb']
  interval_cases k <;> simp

theorem wordOfBytes_toNat (hi lo : Byte) : (wordOfBytes hi lo).toNat = hi.toNat * 256 + lo.toNat := by
  change (hi ++ lo : BitVec (8 + 8)).toNat = _
  rw [BitVec.toNat_append, Nat.shiftLeft_eq, Nat.mul_comm, ← Nat.two_pow_add_eq_or_of_lt lo.isLt, Nat.mul_comm]

end Sys2Proof
end

