-- ==== Sys2Proof/Laws/State.lean ====
section
/-! SUPPORT. One lemma per field per update of the state, so that no proof unfolds a record update; the updates by recursion over a
list and by a condition have theirs by induction or by cases. -/

namespace Sys2Proof.Machine

/-! ### `setV` -/

@[simp] theorem setV_v (s : State) (r : Nibble) (b : Byte) : (s.setV r b).v = s.v.set r.toNat b r.isLt := rfl
@[simp] theorem setV_i (s : State) (r : Nibble) (b : Byte) : (s.setV r b).i = s.i := rfl
@[simp] theorem setV_pc (s : State) (r : Nibble) (b : Byte) : (s.setV r b).pc = s.pc := rfl
@[simp] theorem setV_sp (s : State) (r : Nibble) (b : Byte) : (s.setV r b).sp = s.sp := rfl
@[simp] theorem setV_stack (s : State) (r : Nibble) (b : Byte) : (s.setV r b).stack = s.stack := rfl
@[simp] theorem setV_dt (s : State) (r : Nibble) (b : Byte) : (s.setV r b).dt = s.dt := rfl
@[simp] theorem setV_st (s : State) (r : Nibble) (b : Byte) : (s.setV r b).st = s.st := rfl
@[simp] theorem setV_fb (s : State) (r : Nibble) (b : Byte) : (s.setV r b).fb = s.fb := rfl
@[simp] theorem setV_key (s : State) (r : Nibble) (b : Byte) : (s.setV r b).key = s.key := rfl
@[simp] theorem setV_keyEvt (s : State) (r : Nibble) (b : Byte) : (s.setV r b).keyEvt = s.keyEvt := rfl
@[simp] theorem setV_run (s : State) (r : Nibble) (b : Byte) : (s.setV r b).run = s.run := rfl
@[simp] theorem setV_waitReg (s : State) (r : Nibble) (b : Byte) : (s.setV r b).waitReg = s.waitReg := rfl
@[simp] theorem setV_fault (s : State) (r : Nibble) (b : Byte) : (s.setV r b).fault = s.fault := rfl
@[simp] theorem setV_mem (s : State) (r : Nibble) (b : Byte) : (s.setV r b).mem = s.mem := rfl
@[simp] theorem setV_params (s : State) (r : Nibble) (b : Byte) : (s.setV r b).params = s.params := rfl
@[simp] theorem setV_frameLeft (s : State) (r : Nibble) (b : Byte) : (s.setV r b).frameLeft = s.frameLeft := rfl
@[simp] theorem setV_inbox (s : State) (r : Nibble) (b : Byte) : (s.setV r b).inbox = s.inbox := rfl
@[simp] theorem setV_outbox (s : State) (r : Nibble) (b : Byte) : (s.setV r b).outbox = s.outbox := rfl
@[simp] theorem setV_randCount (s : State) (r : Nibble) (b : Byte) : (s.setV r b).randCount = s.randCount := rfl

/-! ### `setI` -/

@[simp] theorem setI_v (s : State) (w : Word) : (s.setI w).v = s.v := rfl
@[simp] theorem setI_i (s : State) (w : Word) : (s.setI w).i = w := rfl
@[simp] theorem setI_pc (s : State) (w : Word) : (s.setI w).pc = s.pc := rfl
@[simp] theorem setI_sp (s : State) (w : Word) : (s.setI w).sp = s.sp := rfl
@[simp] theorem setI_stack (s : State) (w : Word) : (s.setI w).stack = s.stack := rfl
@[simp] theorem setI_dt (s : State) (w : Word) : (s.setI w).dt = s.dt := rfl
@[simp] theorem setI_st (s : State) (w : Word) : (s.setI w).st = s.st := rfl
@[simp] theorem setI_fb (s : State) (w : Word) : (s.setI w).fb = s.fb := rfl
@[simp] theorem setI_key (s : State) (w : Word) : (s.setI w).key = s.key := rfl
@[simp] theorem setI_keyEvt (s : State) (w : Word) : (s.setI w).keyEvt = s.keyEvt := rfl
@[simp] theorem setI_run (s : State) (w : Word) : (s.setI w).run = s.run := rfl
@[simp] theorem setI_waitReg (s : State) (w : Word) : (s.setI w).waitReg = s.waitReg := rfl
@[simp] theorem setI_fault (s : State) (w : Word) : (s.setI w).fault = s.fault := rfl
@[simp] theorem setI_mem (s : State) (w : Word) : (s.setI w).mem = s.mem := rfl
@[simp] theorem setI_params (s : State) (w : Word) : (s.setI w).params = s.params := rfl
@[simp] theorem setI_frameLeft (s : State) (w : Word) : (s.setI w).frameLeft = s.frameLeft := rfl
@[simp] theorem setI_inbox (s : State) (w : Word) : (s.setI w).inbox = s.inbox := rfl
@[simp] theorem setI_outbox (s : State) (w : Word) : (s.setI w).outbox = s.outbox := rfl
@[simp] theorem setI_randCount (s : State) (w : Word) : (s.setI w).randCount = s.randCount := rfl

/-! ### `setPc` -/

@[simp] theorem setPc_v (s : State) (w : Word) : (s.setPc w).v = s.v := rfl
@[simp] theorem setPc_i (s : State) (w : Word) : (s.setPc w).i = s.i := rfl
@[simp] theorem setPc_pc (s : State) (w : Word) : (s.setPc w).pc = w := rfl
@[simp] theorem setPc_sp (s : State) (w : Word) : (s.setPc w).sp = s.sp := rfl
@[simp] theorem setPc_stack (s : State) (w : Word) : (s.setPc w).stack = s.stack := rfl
@[simp] theorem setPc_dt (s : State) (w : Word) : (s.setPc w).dt = s.dt := rfl
@[simp] theorem setPc_st (s : State) (w : Word) : (s.setPc w).st = s.st := rfl
@[simp] theorem setPc_fb (s : State) (w : Word) : (s.setPc w).fb = s.fb := rfl
@[simp] theorem setPc_key (s : State) (w : Word) : (s.setPc w).key = s.key := rfl
@[simp] theorem setPc_keyEvt (s : State) (w : Word) : (s.setPc w).keyEvt = s.keyEvt := rfl
@[simp] theorem setPc_run (s : State) (w : Word) : (s.setPc w).run = s.run := rfl
@[simp] theorem setPc_waitReg (s : State) (w : Word) : (s.setPc w).waitReg = s.waitReg := rfl
@[simp] theorem setPc_fault (s : State) (w : Word) : (s.setPc w).fault = s.fault := rfl
@[simp] theorem setPc_mem (s : State) (w : Word) : (s.setPc w).mem = s.mem := rfl
@[simp] theorem setPc_params (s : State) (w : Word) : (s.setPc w).params = s.params := rfl
@[simp] theorem setPc_frameLeft (s : State) (w : Word) : (s.setPc w).frameLeft = s.frameLeft := rfl
@[simp] theorem setPc_inbox (s : State) (w : Word) : (s.setPc w).inbox = s.inbox := rfl
@[simp] theorem setPc_outbox (s : State) (w : Word) : (s.setPc w).outbox = s.outbox := rfl
@[simp] theorem setPc_randCount (s : State) (w : Word) : (s.setPc w).randCount = s.randCount := rfl

/-! ### `advancePc` -/

@[simp] theorem advancePc_v (s : State) : (s.advancePc).v = s.v := rfl
@[simp] theorem advancePc_i (s : State) : (s.advancePc).i = s.i := rfl
@[simp] theorem advancePc_pc (s : State) : (s.advancePc).pc = s.pc + 2 := rfl
@[simp] theorem advancePc_sp (s : State) : (s.advancePc).sp = s.sp := rfl
@[simp] theorem advancePc_stack (s : State) : (s.advancePc).stack = s.stack := rfl
@[simp] theorem advancePc_dt (s : State) : (s.advancePc).dt = s.dt := rfl
@[simp] theorem advancePc_st (s : State) : (s.advancePc).st = s.st := rfl
@[simp] theorem advancePc_fb (s : State) : (s.advancePc).fb = s.fb := rfl
@[simp] theorem advancePc_key (s : State) : (s.advancePc).key = s.key := rfl
@[simp] theorem advancePc_keyEvt (s : State) : (s.advancePc).keyEvt = s.keyEvt := rfl
@[simp] theorem advancePc_run (s : State) : (s.advancePc).run = s.run := rfl
@[simp] theorem advancePc_waitReg (s : State) : (s.advancePc).waitReg = s.waitReg := rfl
@[simp] theorem advancePc_fault (s : State) : (s.advancePc).fault = s.fault := rfl
@[simp] theorem advancePc_mem (s : State) : (s.advancePc).mem = s.mem := rfl
@[simp] theorem advancePc_params (s : State) : (s.advancePc).params = s.params := rfl
@[simp] theorem advancePc_frameLeft (s : State) : (s.advancePc).frameLeft = s.frameLeft := rfl
@[simp] theorem advancePc_inbox (s : State) : (s.advancePc).inbox = s.inbox := rfl
@[simp] theorem advancePc_outbox (s : State) : (s.advancePc).outbox = s.outbox := rfl
@[simp] theorem advancePc_randCount (s : State) : (s.advancePc).randCount = s.randCount := rfl

/-! ### `memWrite` -/

@[simp] theorem memWrite_v (s : State) (a : Nat) (b : Byte) : (s.memWrite a b).v = s.v := rfl
@[simp] theorem memWrite_i (s : State) (a : Nat) (b : Byte) : (s.memWrite a b).i = s.i := rfl
@[simp] theorem memWrite_pc (s : State) (a : Nat) (b : Byte) : (s.memWrite a b).pc = s.pc := rfl
@[simp] theorem memWrite_sp (s : State) (a : Nat) (b : Byte) : (s.memWrite a b).sp = s.sp := rfl
@[simp] theorem memWrite_stack (s : State) (a : Nat) (b : Byte) : (s.memWrite a b).stack = s.stack := rfl
@[simp] theorem memWrite_dt (s : State) (a : Nat) (b : Byte) : (s.memWrite a b).dt = s.dt := rfl
@[simp] theorem memWrite_st (s : State) (a : Nat) (b : Byte) : (s.memWrite a b).st = s.st := rfl
@[simp] theorem memWrite_fb (s : State) (a : Nat) (b : Byte) : (s.memWrite a b).fb = s.fb := rfl
@[simp] theorem memWrite_key (s : State) (a : Nat) (b : Byte) : (s.memWrite a b).key = s.key := rfl
@[simp] theorem memWrite_keyEvt (s : State) (a : Nat) (b : Byte) : (s.memWrite a b).keyEvt = s.keyEvt := rfl
@[simp] theorem memWrite_run (s : State) (a : Nat) (b : Byte) : (s.memWrite a b).run = s.run := rfl
@[simp] theorem memWrite_waitReg (s : State) (a : Nat) (b : Byte) : (s.memWrite a b).waitReg = s.waitReg := rfl
@[simp] theorem memWrite_fault (s : State) (a : Nat) (b : Byte) : (s.memWrite a b).fault = s.fault := rfl
@[simp] theorem memWrite_mem (s : State) (a : Nat) (b : Byte) : (s.memWrite a b).mem = Memory.write s.params.font s.mem (a % Config.memSize) b := rfl
@[simp] theorem memWrite_params (s : State) (a : Nat) (b : Byte) : (s.memWrite a b).params = s.params := rfl
@[simp] theorem memWrite_frameLeft (s : State) (a : Nat) (b : Byte) : (s.memWrite a b).frameLeft = s.frameLeft := rfl
@[simp] theorem memWrite_inbox (s : State) (a : Nat) (b : Byte) : (s.memWrite a b).inbox = s.inbox := rfl
@[simp] theorem memWrite_outbox (s : State) (a : Nat) (b : Byte) : (s.memWrite a b).outbox = s.outbox := rfl
@[simp] theorem memWrite_randCount (s : State) (a : Nat) (b : Byte) : (s.memWrite a b).randCount = s.randCount := rfl

/-! ### `emit` -/

@[simp] theorem emit_v (s : State) (o : HostOutput) : (s.emit o).v = s.v := rfl
@[simp] theorem emit_i (s : State) (o : HostOutput) : (s.emit o).i = s.i := rfl
@[simp] theorem emit_pc (s : State) (o : HostOutput) : (s.emit o).pc = s.pc := rfl
@[simp] theorem emit_sp (s : State) (o : HostOutput) : (s.emit o).sp = s.sp := rfl
@[simp] theorem emit_stack (s : State) (o : HostOutput) : (s.emit o).stack = s.stack := rfl
@[simp] theorem emit_dt (s : State) (o : HostOutput) : (s.emit o).dt = s.dt := rfl
@[simp] theorem emit_st (s : State) (o : HostOutput) : (s.emit o).st = s.st := rfl
@[simp] theorem emit_fb (s : State) (o : HostOutput) : (s.emit o).fb = s.fb := rfl
@[simp] theorem emit_key (s : State) (o : HostOutput) : (s.emit o).key = s.key := rfl
@[simp] theorem emit_keyEvt (s : State) (o : HostOutput) : (s.emit o).keyEvt = s.keyEvt := rfl
@[simp] theorem emit_run (s : State) (o : HostOutput) : (s.emit o).run = s.run := rfl
@[simp] theorem emit_waitReg (s : State) (o : HostOutput) : (s.emit o).waitReg = s.waitReg := rfl
@[simp] theorem emit_fault (s : State) (o : HostOutput) : (s.emit o).fault = s.fault := rfl
@[simp] theorem emit_mem (s : State) (o : HostOutput) : (s.emit o).mem = s.mem := rfl
@[simp] theorem emit_params (s : State) (o : HostOutput) : (s.emit o).params = s.params := rfl
@[simp] theorem emit_frameLeft (s : State) (o : HostOutput) : (s.emit o).frameLeft = s.frameLeft := rfl
@[simp] theorem emit_inbox (s : State) (o : HostOutput) : (s.emit o).inbox = s.inbox := rfl
@[simp] theorem emit_outbox (s : State) (o : HostOutput) : (s.emit o).outbox = s.outbox ++ [o] := rfl
@[simp] theorem emit_randCount (s : State) (o : HostOutput) : (s.emit o).randCount = s.randCount := rfl

/-! ### `raiseFault` -/

@[simp] theorem raiseFault_v (s : State) (f : FaultLatch) : (s.raiseFault f).v = s.v := rfl
@[simp] theorem raiseFault_i (s : State) (f : FaultLatch) : (s.raiseFault f).i = s.i := rfl
@[simp] theorem raiseFault_pc (s : State) (f : FaultLatch) : (s.raiseFault f).pc = s.pc - 2 := rfl
@[simp] theorem raiseFault_sp (s : State) (f : FaultLatch) : (s.raiseFault f).sp = s.sp := rfl
@[simp] theorem raiseFault_stack (s : State) (f : FaultLatch) : (s.raiseFault f).stack = s.stack := rfl
@[simp] theorem raiseFault_dt (s : State) (f : FaultLatch) : (s.raiseFault f).dt = s.dt := rfl
@[simp] theorem raiseFault_st (s : State) (f : FaultLatch) : (s.raiseFault f).st = s.st := rfl
@[simp] theorem raiseFault_fb (s : State) (f : FaultLatch) : (s.raiseFault f).fb = s.fb := rfl
@[simp] theorem raiseFault_key (s : State) (f : FaultLatch) : (s.raiseFault f).key = s.key := rfl
@[simp] theorem raiseFault_keyEvt (s : State) (f : FaultLatch) : (s.raiseFault f).keyEvt = s.keyEvt := rfl
@[simp] theorem raiseFault_run (s : State) (f : FaultLatch) : (s.raiseFault f).run = s.run := rfl
@[simp] theorem raiseFault_waitReg (s : State) (f : FaultLatch) : (s.raiseFault f).waitReg = s.waitReg := rfl
@[simp] theorem raiseFault_fault (s : State) (f : FaultLatch) : (s.raiseFault f).fault = f := rfl
@[simp] theorem raiseFault_mem (s : State) (f : FaultLatch) : (s.raiseFault f).mem = s.mem := rfl
@[simp] theorem raiseFault_params (s : State) (f : FaultLatch) : (s.raiseFault f).params = s.params := rfl
@[simp] theorem raiseFault_frameLeft (s : State) (f : FaultLatch) : (s.raiseFault f).frameLeft = s.frameLeft := rfl
@[simp] theorem raiseFault_inbox (s : State) (f : FaultLatch) : (s.raiseFault f).inbox = s.inbox := rfl
@[simp] theorem raiseFault_outbox (s : State) (f : FaultLatch) : (s.raiseFault f).outbox = s.outbox := rfl
@[simp] theorem raiseFault_randCount (s : State) (f : FaultLatch) : (s.raiseFault f).randCount = s.randCount := rfl

/-! ### `tick` -/

@[simp] theorem tick_v (s : State) : (s.tick).v = s.v := rfl
@[simp] theorem tick_i (s : State) : (s.tick).i = s.i := rfl
@[simp] theorem tick_pc (s : State) : (s.tick).pc = s.pc := rfl
@[simp] theorem tick_sp (s : State) : (s.tick).sp = s.sp := rfl
@[simp] theorem tick_stack (s : State) : (s.tick).stack = s.stack := rfl
@[simp] theorem tick_dt (s : State) : (s.tick).dt = countDown s.dt := rfl
@[simp] theorem tick_st (s : State) : (s.tick).st = countDown s.st := rfl
@[simp] theorem tick_fb (s : State) : (s.tick).fb = s.fb := rfl
@[simp] theorem tick_key (s : State) : (s.tick).key = s.key := rfl
@[simp] theorem tick_keyEvt (s : State) : (s.tick).keyEvt = s.keyEvt := rfl
@[simp] theorem tick_run (s : State) : (s.tick).run = s.run := rfl
@[simp] theorem tick_waitReg (s : State) : (s.tick).waitReg = s.waitReg := rfl
@[simp] theorem tick_fault (s : State) : (s.tick).fault = s.fault := rfl
@[simp] theorem tick_mem (s : State) : (s.tick).mem = s.mem := rfl
@[simp] theorem tick_params (s : State) : (s.tick).params = s.params := rfl
@[simp] theorem tick_frameLeft (s : State) : (s.tick).frameLeft = s.frameLeft := rfl
@[simp] theorem tick_inbox (s : State) : (s.tick).inbox = s.inbox := rfl
@[simp] theorem tick_outbox (s : State) : (s.tick).outbox = s.outbox := rfl
@[simp] theorem tick_randCount (s : State) : (s.tick).randCount = s.randCount := rfl

/-! ### `writeFlagged` -/

@[simp] theorem writeFlagged_v (s : State) (x : Nibble) (c : Bool) (b : Byte) : (s.writeFlagged x c b).v = (s.v.set vf.toNat (flagByte c) vf.isLt).set x.toNat b x.isLt := rfl
@[simp] theorem writeFlagged_i (s : State) (x : Nibble) (c : Bool) (b : Byte) : (s.writeFlagged x c b).i = s.i := rfl
@[simp] theorem writeFlagged_pc (s : State) (x : Nibble) (c : Bool) (b : Byte) : (s.writeFlagged x c b).pc = s.pc := rfl
@[simp] theorem writeFlagged_sp (s : State) (x : Nibble) (c : Bool) (b : Byte) : (s.writeFlagged x c b).sp = s.sp := rfl
@[simp] theorem writeFlagged_stack (s : State) (x : Nibble) (c : Bool) (b : Byte) : (s.writeFlagged x c b).stack = s.stack := rfl
@[simp] theorem writeFlagged_dt (s : State) (x : Nibble) (c : Bool) (b : Byte) : (s.writeFlagged x c b).dt = s.dt := rfl
@[simp] theorem writeFlagged_st (s : State) (x : Nibble) (c : Bool) (b : Byte) : (s.writeFlagged x c b).st = s.st := rfl
@[simp] theorem writeFlagged_fb (s : State) (x : Nibble) (c : Bool) (b : Byte) : (s.writeFlagged x c b).fb = s.fb := rfl
@[simp] theorem writeFlagged_key (s : State) (x : Nibble) (c : Bool) (b : Byte) : (s.writeFlagged x c b).key = s.key := rfl
@[simp] theorem writeFlagged_keyEvt (s : State) (x : Nibble) (c : Bool) (b : Byte) : (s.writeFlagged x c b).keyEvt = s.keyEvt := rfl
@[simp] theorem writeFlagged_run (s : State) (x : Nibble) (c : Bool) (b : Byte) : (s.writeFlagged x c b).run = s.run := rfl
@[simp] theorem writeFlagged_waitReg (s : State) (x : Nibble) (c : Bool) (b : Byte) : (s.writeFlagged x c b).waitReg = s.waitReg := rfl
@[simp] theorem writeFlagged_fault (s : State) (x : Nibble) (c : Bool) (b : Byte) : (s.writeFlagged x c b).fault = s.fault := rfl
@[simp] theorem writeFlagged_mem (s : State) (x : Nibble) (c : Bool) (b : Byte) : (s.writeFlagged x c b).mem = s.mem := rfl
@[simp] theorem writeFlagged_params (s : State) (x : Nibble) (c : Bool) (b : Byte) : (s.writeFlagged x c b).params = s.params := rfl
@[simp] theorem writeFlagged_frameLeft (s : State) (x : Nibble) (c : Bool) (b : Byte) : (s.writeFlagged x c b).frameLeft = s.frameLeft := rfl
@[simp] theorem writeFlagged_inbox (s : State) (x : Nibble) (c : Bool) (b : Byte) : (s.writeFlagged x c b).inbox = s.inbox := rfl
@[simp] theorem writeFlagged_outbox (s : State) (x : Nibble) (c : Bool) (b : Byte) : (s.writeFlagged x c b).outbox = s.outbox := rfl
@[simp] theorem writeFlagged_randCount (s : State) (x : Nibble) (c : Bool) (b : Byte) : (s.writeFlagged x c b).randCount = s.randCount := rfl

/-! ### `resolveWait` -/

@[simp] theorem resolveWait_v (s : State) (k : Nibble) : (s.resolveWait k).v = s.v.set s.waitReg.toNat (k.setWidth 8) s.waitReg.isLt := rfl
@[simp] theorem resolveWait_i (s : State) (k : Nibble) : (s.resolveWait k).i = s.i := rfl
@[simp] theorem resolveWait_pc (s : State) (k : Nibble) : (s.resolveWait k).pc = s.pc := rfl
@[simp] theorem resolveWait_sp (s : State) (k : Nibble) : (s.resolveWait k).sp = s.sp := rfl
@[simp] theorem resolveWait_stack (s : State) (k : Nibble) : (s.resolveWait k).stack = s.stack := rfl
@[simp] theorem resolveWait_dt (s : State) (k : Nibble) : (s.resolveWait k).dt = s.dt := rfl
@[simp] theorem resolveWait_st (s : State) (k : Nibble) : (s.resolveWait k).st = s.st := rfl
@[simp] theorem resolveWait_fb (s : State) (k : Nibble) : (s.resolveWait k).fb = s.fb := rfl
@[simp] theorem resolveWait_key (s : State) (k : Nibble) : (s.resolveWait k).key = s.key := rfl
@[simp] theorem resolveWait_keyEvt (s : State) (k : Nibble) : (s.resolveWait k).keyEvt = ⟨false, 0⟩ := rfl
@[simp] theorem resolveWait_run (s : State) (k : Nibble) : (s.resolveWait k).run = .running := rfl
@[simp] theorem resolveWait_waitReg (s : State) (k : Nibble) : (s.resolveWait k).waitReg = s.waitReg := rfl
@[simp] theorem resolveWait_fault (s : State) (k : Nibble) : (s.resolveWait k).fault = s.fault := rfl
@[simp] theorem resolveWait_mem (s : State) (k : Nibble) : (s.resolveWait k).mem = s.mem := rfl
@[simp] theorem resolveWait_params (s : State) (k : Nibble) : (s.resolveWait k).params = s.params := rfl
@[simp] theorem resolveWait_frameLeft (s : State) (k : Nibble) : (s.resolveWait k).frameLeft = s.frameLeft := rfl
@[simp] theorem resolveWait_inbox (s : State) (k : Nibble) : (s.resolveWait k).inbox = s.inbox := rfl
@[simp] theorem resolveWait_outbox (s : State) (k : Nibble) : (s.resolveWait k).outbox = s.outbox := rfl
@[simp] theorem resolveWait_randCount (s : State) (k : Nibble) : (s.resolveWait k).randCount = s.randCount := rfl

/-! ### `drawRandom` -/

@[simp] theorem drawRandom_fst (s : State) : s.drawRandom.1 = Config.randByte s.randCount := rfl
@[simp] theorem drawRandom_v (s : State) : s.drawRandom.2.v = s.v := rfl
@[simp] theorem drawRandom_i (s : State) : s.drawRandom.2.i = s.i := rfl
@[simp] theorem drawRandom_pc (s : State) : s.drawRandom.2.pc = s.pc := rfl
@[simp] theorem drawRandom_sp (s : State) : s.drawRandom.2.sp = s.sp := rfl
@[simp] theorem drawRandom_stack (s : State) : s.drawRandom.2.stack = s.stack := rfl
@[simp] theorem drawRandom_dt (s : State) : s.drawRandom.2.dt = s.dt := rfl
@[simp] theorem drawRandom_st (s : State) : s.drawRandom.2.st = s.st := rfl
@[simp] theorem drawRandom_fb (s : State) : s.drawRandom.2.fb = s.fb := rfl
@[simp] theorem drawRandom_key (s : State) : s.drawRandom.2.key = s.key := rfl
@[simp] theorem drawRandom_keyEvt (s : State) : s.drawRandom.2.keyEvt = s.keyEvt := rfl
@[simp] theorem drawRandom_run (s : State) : s.drawRandom.2.run = s.run := rfl
@[simp] theorem drawRandom_waitReg (s : State) : s.drawRandom.2.waitReg = s.waitReg := rfl
@[simp] theorem drawRandom_fault (s : State) : s.drawRandom.2.fault = s.fault := rfl
@[simp] theorem drawRandom_mem (s : State) : s.drawRandom.2.mem = s.mem := rfl
@[simp] theorem drawRandom_params (s : State) : s.drawRandom.2.params = s.params := rfl
@[simp] theorem drawRandom_frameLeft (s : State) : s.drawRandom.2.frameLeft = s.frameLeft := rfl
@[simp] theorem drawRandom_inbox (s : State) : s.drawRandom.2.inbox = s.inbox := rfl
@[simp] theorem drawRandom_outbox (s : State) : s.drawRandom.2.outbox = s.outbox := rfl
@[simp] theorem drawRandom_randCount (s : State) : s.drawRandom.2.randCount = s.randCount + 1 := rfl

/-! ### `skipIf` -/

@[simp] theorem skipIf_pc (s : State) (c : Bool) : (s.skipIf c).pc = if c then s.pc + 2 else s.pc := by cases c <;> rfl
@[simp] theorem skipIf_v (s : State) (c : Bool) : (s.skipIf c).v = s.v := by cases c <;> rfl
@[simp] theorem skipIf_i (s : State) (c : Bool) : (s.skipIf c).i = s.i := by cases c <;> rfl
@[simp] theorem skipIf_sp (s : State) (c : Bool) : (s.skipIf c).sp = s.sp := by cases c <;> rfl
@[simp] theorem skipIf_stack (s : State) (c : Bool) : (s.skipIf c).stack = s.stack := by cases c <;> rfl
@[simp] theorem skipIf_dt (s : State) (c : Bool) : (s.skipIf c).dt = s.dt := by cases c <;> rfl
@[simp] theorem skipIf_st (s : State) (c : Bool) : (s.skipIf c).st = s.st := by cases c <;> rfl
@[simp] theorem skipIf_fb (s : State) (c : Bool) : (s.skipIf c).fb = s.fb := by cases c <;> rfl
@[simp] theorem skipIf_key (s : State) (c : Bool) : (s.skipIf c).key = s.key := by cases c <;> rfl
@[simp] theorem skipIf_keyEvt (s : State) (c : Bool) : (s.skipIf c).keyEvt = s.keyEvt := by cases c <;> rfl
@[simp] theorem skipIf_run (s : State) (c : Bool) : (s.skipIf c).run = s.run := by cases c <;> rfl
@[simp] theorem skipIf_waitReg (s : State) (c : Bool) : (s.skipIf c).waitReg = s.waitReg := by cases c <;> rfl
@[simp] theorem skipIf_fault (s : State) (c : Bool) : (s.skipIf c).fault = s.fault := by cases c <;> rfl
@[simp] theorem skipIf_mem (s : State) (c : Bool) : (s.skipIf c).mem = s.mem := by cases c <;> rfl
@[simp] theorem skipIf_params (s : State) (c : Bool) : (s.skipIf c).params = s.params := by cases c <;> rfl
@[simp] theorem skipIf_frameLeft (s : State) (c : Bool) : (s.skipIf c).frameLeft = s.frameLeft := by cases c <;> rfl
@[simp] theorem skipIf_inbox (s : State) (c : Bool) : (s.skipIf c).inbox = s.inbox := by cases c <;> rfl
@[simp] theorem skipIf_outbox (s : State) (c : Bool) : (s.skipIf c).outbox = s.outbox := by cases c <;> rfl
@[simp] theorem skipIf_randCount (s : State) (c : Bool) : (s.skipIf c).randCount = s.randCount := by cases c <;> rfl

/-! ### `memWriteList` -/

@[simp] theorem memWriteList_v (s : State) (a : Nat) (bs : List Byte) : (s.memWriteList a bs).v = s.v := by
  induction bs generalizing s a with
  | nil => rfl
  | cons b rest ih => exact (ih _ _).trans rfl
@[simp] theorem memWriteList_i (s : State) (a : Nat) (bs : List Byte) : (s.memWriteList a bs).i = s.i := by
  induction bs generalizing s a with
  | nil => rfl
  | cons b rest ih => exact (ih _ _).trans rfl
@[simp] theorem memWriteList_pc (s : State) (a : Nat) (bs : List Byte) : (s.memWriteList a bs).pc = s.pc := by
  induction bs generalizing s a with
  | nil => rfl
  | cons b rest ih => exact (ih _ _).trans rfl
@[simp] theorem memWriteList_sp (s : State) (a : Nat) (bs : List Byte) : (s.memWriteList a bs).sp = s.sp := by
  induction bs generalizing s a with
  | nil => rfl
  | cons b rest ih => exact (ih _ _).trans rfl
@[simp] theorem memWriteList_stack (s : State) (a : Nat) (bs : List Byte) : (s.memWriteList a bs).stack = s.stack := by
  induction bs generalizing s a with
  | nil => rfl
  | cons b rest ih => exact (ih _ _).trans rfl
@[simp] theorem memWriteList_dt (s : State) (a : Nat) (bs : List Byte) : (s.memWriteList a bs).dt = s.dt := by
  induction bs generalizing s a with
  | nil => rfl
  | cons b rest ih => exact (ih _ _).trans rfl
@[simp] theorem memWriteList_st (s : State) (a : Nat) (bs : List Byte) : (s.memWriteList a bs).st = s.st := by
  induction bs generalizing s a with
  | nil => rfl
  | cons b rest ih => exact (ih _ _).trans rfl
@[simp] theorem memWriteList_fb (s : State) (a : Nat) (bs : List Byte) : (s.memWriteList a bs).fb = s.fb := by
  induction bs generalizing s a with
  | nil => rfl
  | cons b rest ih => exact (ih _ _).trans rfl
@[simp] theorem memWriteList_key (s : State) (a : Nat) (bs : List Byte) : (s.memWriteList a bs).key = s.key := by
  induction bs generalizing s a with
  | nil => rfl
  | cons b rest ih => exact (ih _ _).trans rfl
@[simp] theorem memWriteList_keyEvt (s : State) (a : Nat) (bs : List Byte) : (s.memWriteList a bs).keyEvt = s.keyEvt := by
  induction bs generalizing s a with
  | nil => rfl
  | cons b rest ih => exact (ih _ _).trans rfl
@[simp] theorem memWriteList_run (s : State) (a : Nat) (bs : List Byte) : (s.memWriteList a bs).run = s.run := by
  induction bs generalizing s a with
  | nil => rfl
  | cons b rest ih => exact (ih _ _).trans rfl
@[simp] theorem memWriteList_waitReg (s : State) (a : Nat) (bs : List Byte) : (s.memWriteList a bs).waitReg = s.waitReg := by
  induction bs generalizing s a with
  | nil => rfl
  | cons b rest ih => exact (ih _ _).trans rfl
@[simp] theorem memWriteList_fault (s : State) (a : Nat) (bs : List Byte) : (s.memWriteList a bs).fault = s.fault := by
  induction bs generalizing s a with
  | nil => rfl
  | cons b rest ih => exact (ih _ _).trans rfl
@[simp] theorem memWriteList_params (s : State) (a : Nat) (bs : List Byte) : (s.memWriteList a bs).params = s.params := by
  induction bs generalizing s a with
  | nil => rfl
  | cons b rest ih => exact (ih _ _).trans rfl
@[simp] theorem memWriteList_frameLeft (s : State) (a : Nat) (bs : List Byte) : (s.memWriteList a bs).frameLeft = s.frameLeft := by
  induction bs generalizing s a with
  | nil => rfl
  | cons b rest ih => exact (ih _ _).trans rfl
@[simp] theorem memWriteList_inbox (s : State) (a : Nat) (bs : List Byte) : (s.memWriteList a bs).inbox = s.inbox := by
  induction bs generalizing s a with
  | nil => rfl
  | cons b rest ih => exact (ih _ _).trans rfl
@[simp] theorem memWriteList_outbox (s : State) (a : Nat) (bs : List Byte) : (s.memWriteList a bs).outbox = s.outbox := by
  induction bs generalizing s a with
  | nil => rfl
  | cons b rest ih => exact (ih _ _).trans rfl
@[simp] theorem memWriteList_randCount (s : State) (a : Nat) (bs : List Byte) : (s.memWriteList a bs).randCount = s.randCount := by
  induction bs generalizing s a with
  | nil => rfl
  | cons b rest ih => exact (ih _ _).trans rfl

/-! ### `setRegsFrom` -/

@[simp] theorem setRegsFrom_i (s : State) (k : Nat) (bs : List Byte) : (s.setRegsFrom k bs).i = s.i := by
  induction bs generalizing s k with
  | nil => rfl
  | cons b rest ih => exact (ih _ _).trans rfl
@[simp] theorem setRegsFrom_pc (s : State) (k : Nat) (bs : List Byte) : (s.setRegsFrom k bs).pc = s.pc := by
  induction bs generalizing s k with
  | nil => rfl
  | cons b rest ih => exact (ih _ _).trans rfl
@[simp] theorem setRegsFrom_sp (s : State) (k : Nat) (bs : List Byte) : (s.setRegsFrom k bs).sp = s.sp := by
  induction bs generalizing s k with
  | nil => rfl
  | cons b rest ih => exact (ih _ _).trans rfl
@[simp] theorem setRegsFrom_stack (s : State) (k : Nat) (bs : List Byte) : (s.setRegsFrom k bs).stack = s.stack := by
  induction bs generalizing s k with
  | nil => rfl
  | cons b rest ih => exact (ih _ _).trans rfl
@[simp] theorem setRegsFrom_dt (s : State) (k : Nat) (bs : List Byte) : (s.setRegsFrom k bs).dt = s.dt := by
  induction bs generalizing s k with
  | nil => rfl
  | cons b rest ih => exact (ih _ _).trans rfl
@[simp] theorem setRegsFrom_st (s : State) (k : Nat) (bs : List Byte) : (s.setRegsFrom k bs).st = s.st := by
  induction bs generalizing s k with
  | nil => rfl
  | cons b rest ih => exact (ih _ _).trans rfl
@[simp] theorem setRegsFrom_fb (s : State) (k : Nat) (bs : List Byte) : (s.setRegsFrom k bs).fb = s.fb := by
  induction bs generalizing s k with
  | nil => rfl
  | cons b rest ih => exact (ih _ _).trans rfl
@[simp] theorem setRegsFrom_key (s : State) (k : Nat) (bs : List Byte) : (s.setRegsFrom k bs).key = s.key := by
  induction bs generalizing s k with
  | nil => rfl
  | cons b rest ih => exact (ih _ _).trans rfl
@[simp] theorem setRegsFrom_keyEvt (s : State) (k : Nat) (bs : List Byte) : (s.setRegsFrom k bs).keyEvt = s.keyEvt := by
  induction bs generalizing s k with
  | nil => rfl
  | cons b rest ih => exact (ih _ _).trans rfl
@[simp] theorem setRegsFrom_run (s : State) (k : Nat) (bs : List Byte) : (s.setRegsFrom k bs).run = s.run := by
  induction bs generalizing s k with
  | nil => rfl
  | cons b rest ih => exact (ih _ _).trans rfl
@[simp] theorem setRegsFrom_waitReg (s : State) (k : Nat) (bs : List Byte) : (s.setRegsFrom k bs).waitReg = s.waitReg := by
  induction bs generalizing s k with
  | nil => rfl
  | cons b rest ih => exact (ih _ _).trans rfl
@[simp] theorem setRegsFrom_fault (s : State) (k : Nat) (bs : List Byte) : (s.setRegsFrom k bs).fault = s.fault := by
  induction bs generalizing s k with
  | nil => rfl
  | cons b rest ih => exact (ih _ _).trans rfl
@[simp] theorem setRegsFrom_mem (s : State) (k : Nat) (bs : List Byte) : (s.setRegsFrom k bs).mem = s.mem := by
  induction bs generalizing s k with
  | nil => rfl
  | cons b rest ih => exact (ih _ _).trans rfl
@[simp] theorem setRegsFrom_params (s : State) (k : Nat) (bs : List Byte) : (s.setRegsFrom k bs).params = s.params := by
  induction bs generalizing s k with
  | nil => rfl
  | cons b rest ih => exact (ih _ _).trans rfl
@[simp] theorem setRegsFrom_frameLeft (s : State) (k : Nat) (bs : List Byte) : (s.setRegsFrom k bs).frameLeft = s.frameLeft := by
  induction bs generalizing s k with
  | nil => rfl
  | cons b rest ih => exact (ih _ _).trans rfl
@[simp] theorem setRegsFrom_inbox (s : State) (k : Nat) (bs : List Byte) : (s.setRegsFrom k bs).inbox = s.inbox := by
  induction bs generalizing s k with
  | nil => rfl
  | cons b rest ih => exact (ih _ _).trans rfl
@[simp] theorem setRegsFrom_outbox (s : State) (k : Nat) (bs : List Byte) : (s.setRegsFrom k bs).outbox = s.outbox := by
  induction bs generalizing s k with
  | nil => rfl
  | cons b rest ih => exact (ih _ _).trans rfl
@[simp] theorem setRegsFrom_randCount (s : State) (k : Nat) (bs : List Byte) : (s.setRegsFrom k bs).randCount = s.randCount := by
  induction bs generalizing s k with
  | nil => rfl
  | cons b rest ih => exact (ih _ _).trans rfl

end Sys2Proof.Machine
end

