-- ==== Sys2Proof/Laws/Memory.lean ====
section
/-! SUPPORT. The memory laws: a read after a write (20_memory.md R62, R63), and that every memory operation keeps the canonical
form. -/

namespace Sys2Proof.Machine

/-! ### Cells -/

theorem Memory.read_erase (font : Vector Byte 80) (cells : List Host.Cell) (a a' : Nat) :
    Memory.read font (Memory.erase cells a) a' = if a' = a then Memory.initial font a else Memory.read font cells a' := by
  induction cells with
  | nil => by_cases h : a' = a <;> simp [Memory.erase, Memory.read, h]
  | cons c rest ih =>
    obtain ⟨a0, b0⟩ := c
    simp only [Memory.erase]
    by_cases h : a = a0
    · rw [if_pos h, ih]
      by_cases h' : a' = a <;> simp [Memory.read, h', ← h]
    · rw [if_neg h]
      simp only [Memory.read, ih]
      by_cases h' : a' = a
      · simp [h', h]
      · simp [h']

theorem Memory.read_insert (font : Vector Byte 80) (cells : List Host.Cell) (a a' : Nat) (b : Byte)
    (h : ∀ c ∈ cells, c.1 ≠ a) :
    Memory.read font (Memory.insert cells a b) a' = if a' = a then b else Memory.read font cells a' := by
  induction cells with
  | nil => rfl
  | cons c rest ih =>
    obtain ⟨a0, b0⟩ := c
    have h0 : a0 ≠ a := h (a0, b0) (by simp)
    have ih' := ih fun c hc => h c (by simp [hc])
    simp only [Memory.insert]
    by_cases hlt : a < a0
    · rw [if_pos hlt]; rfl
    · rw [if_neg hlt]
      simp only [Memory.read, ih']
      by_cases ha : a' = a
      · simp [ha, Ne.symm h0]
      · simp [ha]

theorem Memory.mem_erase_ne (cells : List Host.Cell) (a : Nat) : ∀ c ∈ Memory.erase cells a, c.1 ≠ a := by
  induction cells with
  | nil => simp [Memory.erase]
  | cons c rest ih =>
    obtain ⟨a0, b0⟩ := c
    simp only [Memory.erase]
    by_cases h : a = a0
    · rw [if_pos h]; exact ih
    · rw [if_neg h]
      intro c hc
      rcases List.mem_cons.1 hc with rfl | hc
      · exact fun e => h e.symm
      · exact ih c hc

/-- A read after a write: the value at the address written, every other cell as before. -/
theorem Memory.read_write (font : Vector Byte 80) (cells : List Host.Cell) (a a' : Nat) (b : Byte) :
    Memory.read font (Memory.write font cells a b) a' = if a' = a then b else Memory.read font cells a' := by
  unfold Memory.write
  by_cases hb : b = Memory.initial font a
  · rw [if_pos hb, Memory.read_erase, hb]
  · rw [if_neg hb, Memory.read_insert _ _ _ _ _ (Memory.mem_erase_ne _ _), Memory.read_erase]
    by_cases h : a' = a <;> simp [h]

/-! ### The canonical form -/

theorem Memory.wfFrom_mono (font : Vector Byte 80) {lo lo' : Nat} (h : lo' ≤ lo) (cells : List Host.Cell)
    (hw : Memory.wfFrom font lo cells = true) : Memory.wfFrom font lo' cells = true := by
  cases cells with
  | nil => rfl
  | cons c rest =>
    simp only [Memory.wfFrom, Bool.and_eq_true, decide_eq_true_eq] at hw ⊢
    exact ⟨⟨⟨by omega, hw.1.1.2⟩, hw.1.2⟩, hw.2⟩

theorem Memory.wfFrom_erase (font : Vector Byte 80) (cells : List Host.Cell) (a lo : Nat)
    (hw : Memory.wfFrom font lo cells = true) : Memory.wfFrom font lo (Memory.erase cells a) = true := by
  induction cells generalizing lo with
  | nil => rfl
  | cons c rest ih =>
    obtain ⟨a0, b0⟩ := c
    simp only [Memory.wfFrom, Bool.and_eq_true, decide_eq_true_eq] at hw
    simp only [Memory.erase]
    by_cases h : a = a0
    · rw [if_pos h]
      exact Memory.wfFrom_mono font (by omega) _ (ih _ hw.2)
    · rw [if_neg h]
      simp only [Memory.wfFrom, Bool.and_eq_true, decide_eq_true_eq]
      exact ⟨hw.1, ih _ hw.2⟩

theorem Memory.wfFrom_insert (font : Vector Byte 80) (cells : List Host.Cell) (a lo : Nat) (b : Byte)
    (hw : Memory.wfFrom font lo cells = true) (hlo : lo ≤ a) (ha : a < Config.memSize)
    (hb : b ≠ Memory.initial font a) (hne : ∀ c ∈ cells, c.1 ≠ a) :
    Memory.wfFrom font lo (Memory.insert cells a b) = true := by
  induction cells generalizing lo with
  | nil => simp [Memory.insert, Memory.wfFrom, hlo, ha, hb]
  | cons c rest ih =>
    obtain ⟨a0, b0⟩ := c
    have h0 : a0 ≠ a := hne (a0, b0) (by simp)
    simp only [Memory.wfFrom, Bool.and_eq_true, decide_eq_true_eq] at hw
    simp only [Memory.insert]
    by_cases hlt : a < a0
    · rw [if_pos hlt]
      simp only [Memory.wfFrom, Bool.and_eq_true, decide_eq_true_eq]
      exact ⟨⟨⟨hlo, ha⟩, hb⟩, ⟨⟨by omega, hw.1.1.2⟩, hw.1.2⟩, hw.2⟩
    · rw [if_neg hlt]
      simp only [Memory.wfFrom, Bool.and_eq_true, decide_eq_true_eq]
      exact ⟨hw.1, ih _ hw.2 (by omega) fun c hc => hne c (by simp [hc])⟩

/-- Every write keeps the canonical form. -/
theorem Memory.wf_write (font : Vector Byte 80) (cells : List Host.Cell) (a : Nat) (b : Byte)
    (hw : Memory.wf font cells = true) (ha : a < Config.memSize) : Memory.wf font (Memory.write font cells a b) = true := by
  unfold Memory.write
  by_cases hb : b = Memory.initial font a
  · rw [if_pos hb]; exact Memory.wfFrom_erase _ _ _ _ hw
  · rw [if_neg hb]
    exact Memory.wfFrom_insert _ _ _ _ _ (Memory.wfFrom_erase _ _ _ _ hw) (Nat.zero_le _) ha hb (Memory.mem_erase_ne _ _)

/-- The empty list, the memory after reset, is in the canonical form. -/
@[simp] theorem Memory.wf_nil (font : Vector Byte 80) : Memory.wf font [] = true := rfl

/-! ### The access primitives of the state -/

/-- A byte is read from memory and the parameters alone. -/
theorem memRead_congr {s t : State} (hm : t.mem = s.mem) (hp : t.params = s.params) (a : Nat) : t.memRead a = s.memRead a := by
  simp [State.memRead, hm, hp]

/-- An address counts modulo 4096 (20_memory.md R62). -/
@[simp] theorem memRead_mod (s : State) (a : Nat) : s.memRead (a % Config.memSize) = s.memRead a := by
  simp [State.memRead]

theorem memRead_memWrite (s : State) (a a' : Nat) (b : Byte) :
    (s.memWrite a b).memRead a' = if a' % Config.memSize = a % Config.memSize then b else s.memRead a' := by
  simp only [State.memRead, memWrite_mem, memWrite_params, Memory.read_write]

theorem wf_memWrite (s : State) (a : Nat) (b : Byte) (hw : Memory.wf s.params.font s.mem = true) :
    Memory.wf (s.memWrite a b).params.font (s.memWrite a b).mem = true :=
  Memory.wf_write _ _ _ _ hw (Nat.mod_lt _ (by decide))

theorem wf_memWriteList (bs : List Byte) : ∀ (s : State) (a : Nat), Memory.wf s.params.font s.mem = true →
    Memory.wf (s.memWriteList a bs).params.font (s.memWriteList a bs).mem = true := by
  induction bs with
  | nil => exact fun _ _ h => h
  | cons b rest ih => exact fun s a h => ih _ _ (wf_memWrite s a b h)

@[simp] theorem memRead_setV (s : State) (r : Nibble) (b : Byte) (a : Nat) : (s.setV r b).memRead a = s.memRead a := rfl
@[simp] theorem memRead_setI (s : State) (w : Word) (a : Nat) : (s.setI w).memRead a = s.memRead a := rfl
@[simp] theorem memRead_setPc (s : State) (w : Word) (a : Nat) : (s.setPc w).memRead a = s.memRead a := rfl
@[simp] theorem memRead_advancePc (s : State) (a : Nat) : s.advancePc.memRead a = s.memRead a := rfl
@[simp] theorem memRead_emit (s : State) (o : HostOutput) (a : Nat) : (s.emit o).memRead a = s.memRead a := rfl
@[simp] theorem memRead_raiseFault (s : State) (f : FaultLatch) (a : Nat) : (s.raiseFault f).memRead a = s.memRead a := rfl
@[simp] theorem memRead_tick (s : State) (a : Nat) : s.tick.memRead a = s.memRead a := rfl
@[simp] theorem memRead_drawRandom (s : State) (a : Nat) : s.drawRandom.2.memRead a = s.memRead a := rfl
@[simp] theorem memRead_writeFlagged (s : State) (x : Nibble) (c : Bool) (b : Byte) (a : Nat) :
    (s.writeFlagged x c b).memRead a = s.memRead a := rfl
@[simp] theorem memRead_skipIf (s : State) (c : Bool) (a : Nat) : (s.skipIf c).memRead a = s.memRead a :=
  memRead_congr (by simp) (by simp) a
@[simp] theorem memRead_setRegsFrom (s : State) (k : Nat) (bs : List Byte) (a : Nat) :
    (s.setRegsFrom k bs).memRead a = s.memRead a := memRead_congr (by simp) (by simp) a

end Sys2Proof.Machine
end

