-- ==== Sys2Proof/Laws/Display.lean ====
section
/-! SUPPORT. One pixel after a flip, after a clear, and after one row of a sprite (43_display.md R200, R202). -/

namespace Sys2Proof.Machine

/-- A flip changes the one pixel it names. -/
theorem pixel_flip (fb : Display) (x y x' y' : Nat) :
    Display.pixel (Display.flip fb x y) x' y' =
      (Display.pixel fb x' y' ^^ (decide (x' % 64 = x % 64) && decide (y' % 32 = y % 32))) := by
  have hx : x' % 64 < 64 := Nat.mod_lt _ (by decide)
  simp only [Display.pixel, Display.flip, Vector.getElem_set]
  by_cases hy : y % 32 = y' % 32
  · have hsh : (1#64 <<< (x % 64)).getLsbD (x' % 64) = decide (x' % 64 = x % 64) := by
      simp only [BitVec.getLsbD_shiftLeft, BitVec.getLsbD_one]
      by_cases h : x' % 64 = x % 64
      · simp [h]; omega
      · by_cases h2 : x' % 64 < x % 64
        · simp [h, h2]
        · have : ¬ x' % 64 - x % 64 = 0 := by omega
          simp [h, this]
    simp only [hy, if_true, BitVec.getLsbD_xor, hsh, decide_true, Bool.and_true]
  · have : ¬ y' % 32 = y % 32 := fun e => hy e.symm
    simp [hy, this]

@[simp] theorem pixel_clear (x y : Nat) : Display.pixel Display.clear x y = false := by
  simp [Display.pixel, Display.clear]

/-- Coordinates count modulo the grid (43_display.md R203). -/
theorem pixel_mod (fb : Display) (x y : Nat) : Display.pixel fb (x % 64) (y % 32) = Display.pixel fb x y := by
  simp [Display.pixel]

/-- A display is its pixels. -/
theorem Display.ext_pixel {f g : Display} (h : ∀ x y, x < 64 → y < 32 → Display.pixel f x y = Display.pixel g x y) : f = g := by
  apply Vector.ext
  intro y hy
  apply BitVec.eq_of_getLsbD_eq
  intro x hx
  have := h x y hx hy
  simpa only [Display.pixel, Nat.mod_eq_of_lt hx, Nat.mod_eq_of_lt hy] using this

/-! ### A row of a sprite -/

/-- Whether column c of one sprite row at (px, py) is a 1 bit on the pixel (x, y). -/
def bitCovers (px py : Nat) (row : Byte) (c x y : Nat) : Bool :=
  row.getLsbD (7 - c) && (decide (x % 64 = (px + c) % 64) && decide (y % 32 = py % 32))

theorem pixel_plotBit (px py : Nat) (row : Byte) (acc : Display × Bool) (c x y : Nat) :
    Display.pixel (plotBit px py row acc c).1 x y = (Display.pixel acc.1 x y ^^ bitCovers px py row c x y) := by
  unfold plotBit bitCovers
  split
  · rename_i h
    simp [pixel_flip, h]
  · rename_i h
    simp [h]

theorem collision_plotBit (px py : Nat) (row : Byte) (acc : Display × Bool) (c : Nat) :
    (plotBit px py row acc c).2 = (acc.2 || row.getLsbD (7 - c) && Display.pixel acc.1 (px + c) py) := by
  unfold plotBit
  split
  · rename_i h
    simp [h]
  · rename_i h
    simp [h]

/-- The first n columns of a row: each pixel is flipped when one of them covers it, and a collision is a covered pixel that was lit.
No pixel is visited twice (43_display.md R204 (a)). -/
theorem foldl_plotBit (px py : Nat) (row : Byte) (acc : Display × Bool) : ∀ n, n ≤ 8 →
    (∀ x y, Display.pixel ((List.range n).foldl (plotBit px py row) acc).1 x y =
      (Display.pixel acc.1 x y ^^ (List.range n).any fun c => bitCovers px py row c x y)) ∧
    ((List.range n).foldl (plotBit px py row) acc).2 =
      (acc.2 || (List.range n).any fun c => row.getLsbD (7 - c) && Display.pixel acc.1 (px + c) py)
  | 0, _ => by simp
  | n + 1, hn => by
    obtain ⟨h1, h2⟩ := foldl_plotBit px py row acc n (by omega)
    have hnew : ∀ x y, bitCovers px py row n x y = true →
        ((List.range n).any fun c => bitCovers px py row c x y) = false := by
      intro x y h
      simp only [bitCovers, Bool.and_eq_true, decide_eq_true_eq] at h
      simp only [List.any_eq_false, List.mem_range, bitCovers, Bool.and_eq_true, decide_eq_true_eq]
      omega
    simp only [List.range_succ, List.foldl_append, List.foldl_cons, List.foldl_nil, List.any_append, List.any_cons, List.any_nil,
      Bool.or_false]
    refine ⟨fun x y => ?_, ?_⟩
    · rw [pixel_plotBit, h1, Bool.xor_assoc]
      cases hb : bitCovers px py row n x y with
      | false => simp
      | true => simp [hnew x y hb]
    · rw [collision_plotBit, h2, h1]
      cases hb : row.getLsbD (7 - n) with
      | false => simp
      | true => simp [hnew (px + n) py (by simp [bitCovers, hb]), Bool.or_assoc]

/-- One sprite row (43_display.md R202). -/
theorem pixel_plotRow (px py : Nat) (row : Byte) (acc : Display × Bool) (x y : Nat) :
    Display.pixel (plotRow px py row acc).1 x y =
      (Display.pixel acc.1 x y ^^ (List.range 8).any fun c => bitCovers px py row c x y) :=
  (foldl_plotBit px py row acc 8 (Nat.le_refl 8)).1 x y

/-- The collision of one sprite row (43_display.md R202). -/
theorem collision_plotRow (px py : Nat) (row : Byte) (acc : Display × Bool) :
    (plotRow px py row acc).2 =
      (acc.2 || (List.range 8).any fun c => row.getLsbD (7 - c) && Display.pixel acc.1 (px + c) py) :=
  (foldl_plotBit px py row acc 8 (Nat.le_refl 8)).2

end Sys2Proof.Machine
end

