-- ==== Sys2Proof/Laws/Registers.lean ====
section
/-! SUPPORT. Reading a register after each update: the register laws of 10_state.md R20. -/

namespace Sys2Proof.Machine

/-- A register is read from the register file alone. -/
theorem getV_congr {s t : State} (h : t.v = s.v) (r : Nibble) : t.getV r = s.getV r := by simp [State.getV, h]

theorem getV_setV (s : State) (r x : Nibble) (b : Byte) : (s.setV x b).getV r = if r = x then b else s.getV r := by
  simp only [State.getV, setV_v, Vector.getElem_set]
  by_cases h : r = x
  · simp [h]
  · have : x.toNat ≠ r.toNat := fun e => h (BitVec.eq_of_toNat_eq e.symm)
    simp [h, this]

@[simp] theorem getV_setV_same (s : State) (x : Nibble) (b : Byte) : (s.setV x b).getV x = b := by simp [getV_setV]

theorem getV_setV_ne (s : State) {r x : Nibble} (b : Byte) (h : r ≠ x) : (s.setV x b).getV r = s.getV r := by
  simp [getV_setV, h]

/-- The two writes of a flag-writing instruction: the result stands in V[x], the flag in VF unless x is VF
(41_load_and_alu.md R150). -/
theorem getV_writeFlagged (s : State) (r x : Nibble) (c : Bool) (b : Byte) :
    (s.writeFlagged x c b).getV r = if r = x then b else if r = vf then flagByte c else s.getV r := by
  simp only [State.writeFlagged, getV_setV]

@[simp] theorem getV_setI (s : State) (w : Word) (r : Nibble) : (s.setI w).getV r = s.getV r := rfl
@[simp] theorem getV_setPc (s : State) (w : Word) (r : Nibble) : (s.setPc w).getV r = s.getV r := rfl
@[simp] theorem getV_advancePc (s : State) (r : Nibble) : s.advancePc.getV r = s.getV r := rfl
@[simp] theorem getV_memWrite (s : State) (a : Nat) (b : Byte) (r : Nibble) : (s.memWrite a b).getV r = s.getV r := rfl
@[simp] theorem getV_emit (s : State) (o : HostOutput) (r : Nibble) : (s.emit o).getV r = s.getV r := rfl
@[simp] theorem getV_raiseFault (s : State) (f : FaultLatch) (r : Nibble) : (s.raiseFault f).getV r = s.getV r := rfl
@[simp] theorem getV_tick (s : State) (r : Nibble) : s.tick.getV r = s.getV r := rfl
@[simp] theorem getV_drawRandom (s : State) (r : Nibble) : s.drawRandom.2.getV r = s.getV r := rfl
@[simp] theorem getV_skipIf (s : State) (c : Bool) (r : Nibble) : (s.skipIf c).getV r = s.getV r := getV_congr (by simp) r
@[simp] theorem getV_memWriteList (s : State) (a : Nat) (bs : List Byte) (r : Nibble) :
    (s.memWriteList a bs).getV r = s.getV r := getV_congr (by simp) r

/-- Loading bytes into V[k], V[k+1], …: a register in the range holds its byte, the others stay. -/
theorem getV_setRegsFrom (bs : List Byte) : ∀ (s : State) (k : Nat) (r : Nibble), k + bs.length ≤ 16 →
    (s.setRegsFrom k bs).getV r =
      if h : k ≤ r.toNat ∧ r.toNat < k + bs.length then bs[r.toNat - k]'(by omega) else s.getV r := by
  induction bs with
  | nil => intro s k r _; simp [State.setRegsFrom]
  | cons b rest ih =>
    intro s k r hk
    simp only [List.length_cons] at hk
    simp only [State.setRegsFrom, List.length_cons]
    rw [ih _ _ _ (by omega)]
    have hr := r.isLt
    have hkr : (r = BitVec.ofNat 4 k) ↔ r.toNat = k := by
      rw [← BitVec.toNat_inj, BitVec.toNat_ofNat, Nat.mod_eq_of_lt (by omega)]
    by_cases h1 : k + 1 ≤ r.toNat ∧ r.toNat < k + 1 + rest.length
    · rw [dif_pos h1, dif_pos (by omega)]
      have : r.toNat - k = r.toNat - (k + 1) + 1 := by omega
      simp [this]
    · rw [dif_neg h1, getV_setV]
      by_cases h2 : r.toNat = k
      · rw [if_pos (hkr.2 h2), dif_pos (by omega)]
        simp [h2]
      · rw [if_neg (fun e => h2 (hkr.1 e)), dif_neg (by omega)]

end Sys2Proof.Machine
end

