-- ==== Sys2Proof/Laws/Stack.lean ====
section
/-! SUPPORT. What `push`, `pop` and the two instructions over them do, said once (10_state.md R27, R28,
40_cycle_and_control_flow.md R122, R124). -/

namespace Sys2Proof.Machine

theorem push_of_lt (s : State) (a : Word) (h : s.sp.val < 16) :
    s.push a = some { s with stack := s.stack.set s.sp.val a h, sp := ⟨s.sp.val + 1, by omega⟩ } := by
  simp [State.push, h]

theorem push_of_full (s : State) (a : Word) (h : ¬ s.sp.val < 16) : s.push a = none := by
  simp only [State.push, dif_neg h]

theorem pop_of_pos (s : State) (h : 0 < s.sp.val) :
    s.pop = some (s.stack[s.sp.val - 1]'(by omega), { s with sp := ⟨s.sp.val - 1, by omega⟩ }) := by
  simp only [State.pop, dif_pos h]

theorem pop_of_empty (s : State) (h : ¬ 0 < s.sp.val) : s.pop = none := by
  simp only [State.pop, dif_neg h]

theorem sp_eq_full (s : State) (h : ¬ s.sp.val < 16) : s.sp = 16 := by
  have := s.sp.isLt
  exact Fin.ext (by show s.sp.val = 16; omega)

theorem sp_eq_empty (s : State) (h : ¬ 0 < s.sp.val) : s.sp = 0 := Fin.ext (by show s.sp.val = 0; omega)

/-- A call on a stack that is not full. -/
theorem exec_call_of_lt (nnn : Addr12) (s : State) (h : s.sp.val < 16) :
    exec (.call nnn) s = .next
      { s with stack := s.stack.set s.sp.val s.pc h, sp := ⟨s.sp.val + 1, by omega⟩, pc := nnn.toWord } := by
  simp only [exec, execCall, push_of_lt s s.pc h]; rfl

/-- A call on the full stack. -/
theorem exec_call_of_full (nnn : Addr12) (s : State) (h : ¬ s.sp.val < 16) :
    exec (.call nnn) s = .next (s.raiseFault .stackOverflow) := by
  simp only [exec, execCall, push_of_full s s.pc h]

/-- A return on a stack that is not empty. -/
theorem exec_ret_of_pos (s : State) (h : 0 < s.sp.val) :
    exec .ret s = .next
      { s with pc := s.stack[s.sp.val - 1]'(by omega), sp := ⟨s.sp.val - 1, by omega⟩ } := by
  simp only [exec, execRet, pop_of_pos s h]; rfl

/-- A return on the empty stack. -/
theorem exec_ret_of_empty (s : State) (h : ¬ 0 < s.sp.val) : exec .ret s = .next (s.raiseFault .stackUnderflow) := by
  simp only [exec, execRet, pop_of_empty s h]

end Sys2Proof.Machine
end

