-- ==== Sys2Proof/Laws/Exec.lean ====
section
/-! SUPPORT. What every instruction does to the parts it shares with the frame and the host, said once, so that no invariant unfolds
the 34 meanings. -/

namespace Sys2Proof.Machine

/-- How an instruction can leave RUN, KEYEVT, FAULT and SP: it leaves the first three alone; or it is a stack instruction that
raises its fault; or it is `Fx0A`. -/
inductive ControlEffect (i : Instr) (s t : State) : Prop where
  | plain (run : t.run = s.run) (evt : t.keyEvt = s.keyEvt) (fault : t.fault = s.fault)
  | overflow (run : t.run = s.run) (evt : t.keyEvt = s.keyEvt) (fault : t.fault = .stackOverflow) (old : s.sp = 16)
      (new : t.sp = 16)
  | underflow (run : t.run = s.run) (evt : t.keyEvt = s.keyEvt) (fault : t.fault = .stackUnderflow) (old : s.sp = 0)
      (new : t.sp = 0)
  | wait (x : Nibble) (instr : i = .ldVxK x) (run : t.run = .awaitingKey) (evt : t.keyEvt = ⟨false, 0⟩)
      (fault : t.fault = s.fault)

/-- What every instruction keeps. -/
structure ExecKeeps (s t : State) : Prop where
  params : t.params = s.params
  frameLeft : t.frameLeft = s.frameLeft
  inbox : t.inbox = s.inbox
  outbox : t.outbox = s.outbox
  key : t.key = s.key
  wf : Memory.wf s.params.font s.mem = true → Memory.wf t.params.font t.mem = true

theorem ExecKeeps.ofRfl {s t : State} (hp : t.params = s.params) (hf : t.frameLeft = s.frameLeft) (hi : t.inbox = s.inbox)
    (ho : t.outbox = s.outbox) (hk : t.key = s.key) (hm : t.mem = s.mem) : ExecKeeps s t :=
  ⟨hp, hf, hi, ho, hk, by rw [hp, hm]; exact id⟩

/-- Every instruction answers a next state; this is what can be said of it whatever the instruction. -/
theorem exec_cases (i : Instr) (s : State) : ∃ t, exec i s = .next t ∧ ExecKeeps s t ∧ ControlEffect i s t := by
  cases i
  case call nnn =>
    by_cases h : s.sp.val < 16
    · exact ⟨_, exec_call_of_lt nnn s h, .ofRfl rfl rfl rfl rfl rfl rfl, .plain rfl rfl rfl⟩
    · have hsp := sp_eq_full s h
      exact ⟨_, exec_call_of_full nnn s h, .ofRfl rfl rfl rfl rfl rfl rfl, .overflow rfl rfl rfl hsp hsp⟩
  case ret =>
    by_cases h : 0 < s.sp.val
    · exact ⟨_, exec_ret_of_pos s h, .ofRfl rfl rfl rfl rfl rfl rfl, .plain rfl rfl rfl⟩
    · have hsp := sp_eq_empty s h
      exact ⟨_, exec_ret_of_empty s h, .ofRfl rfl rfl rfl rfl rfl rfl, .underflow rfl rfl rfl hsp hsp⟩
  case ldVxK x => exact ⟨_, rfl, .ofRfl rfl rfl rfl rfl rfl rfl, .wait x rfl rfl rfl rfl⟩
  case ldBVx x =>
    exact ⟨_, rfl, ⟨by simp, by simp, by simp, by simp, by simp, wf_memWriteList _ _ _⟩, .plain (by simp) (by simp) (by simp)⟩
  case ldMemVx x =>
    exact ⟨_, rfl, ⟨by simp, by simp, by simp, by simp, by simp, wf_memWriteList _ _ _⟩, .plain (by simp) (by simp) (by simp)⟩
  all_goals
    exact ⟨_, rfl, .ofRfl (by simp) (by simp) (by simp) (by simp) (by simp) (by simp),
      .plain (by simp) (by simp) (by simp)⟩

/-! ### No instruction reads the frame's counter -/

theorem memWriteList_withFrameLeft (bs : List Byte) : ∀ (s : State) (a n : Nat),
    ({ s with frameLeft := n } : State).memWriteList a bs = { s.memWriteList a bs with frameLeft := n } := by
  induction bs with
  | nil => intros; rfl
  | cons b rest ih => intro s a n; exact ih (s.memWrite a b) (a + 1) n

theorem setRegsFrom_withFrameLeft (bs : List Byte) : ∀ (s : State) (k n : Nat),
    ({ s with frameLeft := n } : State).setRegsFrom k bs = { s.setRegsFrom k bs with frameLeft := n } := by
  induction bs with
  | nil => intros; rfl
  | cons b rest ih => intro s k n; exact ih (s.setV (BitVec.ofNat 4 k) b) (k + 1) n

theorem skipIf_withFrameLeft (s : State) (c : Bool) (n : Nat) :
    ({ s with frameLeft := n } : State).skipIf c = { s.skipIf c with frameLeft := n } := by cases c <;> rfl

/-- An instruction behaves the same wherever its cycle stands in a frame. -/
theorem exec_withFrameLeft {i : Instr} {s t : State} (h : exec i s = .next t) (n : Nat) :
    exec i { s with frameLeft := n } = .next { t with frameLeft := n } := by
  cases i
  case call nnn =>
    by_cases hs : s.sp.val < 16
    · rw [exec_call_of_lt nnn s hs] at h
      cases h
      exact exec_call_of_lt nnn { s with frameLeft := n } hs
    · rw [exec_call_of_full nnn s hs] at h
      cases h
      exact exec_call_of_full nnn { s with frameLeft := n } hs
  case ret =>
    by_cases hs : 0 < s.sp.val
    · rw [exec_ret_of_pos s hs] at h
      cases h
      exact exec_ret_of_pos { s with frameLeft := n } hs
    · rw [exec_ret_of_empty s hs] at h
      cases h
      exact exec_ret_of_empty { s with frameLeft := n } hs
  case ldBVx x =>
    cases h
    exact congrArg _ (memWriteList_withFrameLeft _ _ _ _)
  case ldMemVx x =>
    cases h
    exact congrArg _ (memWriteList_withFrameLeft _ _ _ _)
  case ldVxMem x =>
    cases h
    exact congrArg _ (setRegsFrom_withFrameLeft _ _ _ _)
  case seVxKk x kk => cases h; exact congrArg _ (skipIf_withFrameLeft _ _ _)
  case sneVxKk x kk => cases h; exact congrArg _ (skipIf_withFrameLeft _ _ _)
  case seVxVy x y => cases h; exact congrArg _ (skipIf_withFrameLeft _ _ _)
  case sneVxVy x y => cases h; exact congrArg _ (skipIf_withFrameLeft _ _ _)
  case skp x => cases h; exact congrArg _ (skipIf_withFrameLeft _ _ _)
  case sknp x => cases h; exact congrArg _ (skipIf_withFrameLeft _ _ _)
  all_goals cases h; rfl

end Sys2Proof.Machine
end

