-- ==== Sys2Proof/Laws/PerInstr.lean ====
section
/-! SUPPORT. The family TableRow of LAWS.json: every instruction's word lies in a row of the opcode table of 30_encoding.md R96 that
carries its mnemonic, whatever its operands are. One lemma per constructor. -/

namespace Sys2Proof.Laws.TableRow

open Sys2Proof

/-- The words of `i` match a row of the table labelled with its mnemonic. -/
def Statement (i : Instr) : Prop := ∃ row ∈ opcodeTable, row.mnemonic = i.mnemonic ∧ encode i &&& row.mask = row.pattern

/-! ### The bits a mask keeps -/

theorem maskFamily_nnn (f : Nibble) (nnn : Addr12) : (f ++ nnn : Word) &&& 0xF000 = (f ++ 0#12 : Word) := by
  apply BitVec.eq_of_getLsbD_eq
  intro k hk
  simp only [BitVec.getLsbD_and, BitVec.getLsbD_append]
  interval_cases k <;> simp

theorem maskFamily_xkk (f x : Nibble) (kk : Byte) : (f ++ x ++ kk : Word) &&& 0xF000 = (f ++ 0#12 : Word) := by
  apply BitVec.eq_of_getLsbD_eq
  intro k hk
  simp only [BitVec.getLsbD_and, BitVec.getLsbD_append]
  interval_cases k <;> simp

theorem maskFamily_xyn (f x y n : Nibble) : (f ++ x ++ y ++ n : Word) &&& 0xF000 = (f ++ 0#12 : Word) := by
  apply BitVec.eq_of_getLsbD_eq
  intro k hk
  simp only [BitVec.getLsbD_and, BitVec.getLsbD_append]
  interval_cases k <;> simp

theorem maskEnds_xyn (f x y n : Nibble) : (f ++ x ++ y ++ n : Word) &&& 0xF00F = (f ++ 0#8 ++ n : Word) := by
  apply BitVec.eq_of_getLsbD_eq
  intro k hk
  simp only [BitVec.getLsbD_and, BitVec.getLsbD_append]
  interval_cases k <;> simp

theorem maskSelector_xkk (f x : Nibble) (kk : Byte) : (f ++ x ++ kk : Word) &&& 0xF0FF = (f ++ 0#4 ++ kk : Word) := by
  apply BitVec.eq_of_getLsbD_eq
  intro k hk
  simp only [BitVec.getLsbD_and, BitVec.getLsbD_append]
  interval_cases k <;> simp

/-! ### The constructors -/

theorem cls : Statement (.cls) :=
  ⟨⟨"CLS", 0x00E0, 0xFFFF⟩, by decide, rfl, rfl⟩

theorem ret : Statement (.ret) :=
  ⟨⟨"RET", 0x00EE, 0xFFFF⟩, by decide, rfl, rfl⟩

theorem jp (nnn : Addr12) : Statement (.jp nnn) :=
  ⟨⟨"JP", 0x1000, 0xF000⟩, by decide, rfl, maskFamily_nnn _ _⟩

theorem call (nnn : Addr12) : Statement (.call nnn) :=
  ⟨⟨"CALL", 0x2000, 0xF000⟩, by decide, rfl, maskFamily_nnn _ _⟩

theorem seVxKk (x : Nibble) (kk : Byte) : Statement (.seVxKk x kk) :=
  ⟨⟨"SE_VX_KK", 0x3000, 0xF000⟩, by decide, rfl, maskFamily_xkk _ _ _⟩

theorem sneVxKk (x : Nibble) (kk : Byte) : Statement (.sneVxKk x kk) :=
  ⟨⟨"SNE_VX_KK", 0x4000, 0xF000⟩, by decide, rfl, maskFamily_xkk _ _ _⟩

theorem seVxVy (x y : Nibble) : Statement (.seVxVy x y) :=
  ⟨⟨"SE_VX_VY", 0x5000, 0xF00F⟩, by decide, rfl, maskEnds_xyn _ _ _ _⟩

theorem ldVxKk (x : Nibble) (kk : Byte) : Statement (.ldVxKk x kk) :=
  ⟨⟨"LD_VX_KK", 0x6000, 0xF000⟩, by decide, rfl, maskFamily_xkk _ _ _⟩

theorem addVxKk (x : Nibble) (kk : Byte) : Statement (.addVxKk x kk) :=
  ⟨⟨"ADD_VX_KK", 0x7000, 0xF000⟩, by decide, rfl, maskFamily_xkk _ _ _⟩

theorem ldVxVy (x y : Nibble) : Statement (.ldVxVy x y) :=
  ⟨⟨"LD_VX_VY", 0x8000, 0xF00F⟩, by decide, rfl, maskEnds_xyn _ _ _ _⟩

theorem or (x y : Nibble) : Statement (.or x y) :=
  ⟨⟨"OR", 0x8001, 0xF00F⟩, by decide, rfl, maskEnds_xyn _ _ _ _⟩

theorem and (x y : Nibble) : Statement (.and x y) :=
  ⟨⟨"AND", 0x8002, 0xF00F⟩, by decide, rfl, maskEnds_xyn _ _ _ _⟩

theorem xor (x y : Nibble) : Statement (.xor x y) :=
  ⟨⟨"XOR", 0x8003, 0xF00F⟩, by decide, rfl, maskEnds_xyn _ _ _ _⟩

theorem addVxVy (x y : Nibble) : Statement (.addVxVy x y) :=
  ⟨⟨"ADD_VX_VY", 0x8004, 0xF00F⟩, by decide, rfl, maskEnds_xyn _ _ _ _⟩

theorem sub (x y : Nibble) : Statement (.sub x y) :=
  ⟨⟨"SUB", 0x8005, 0xF00F⟩, by decide, rfl, maskEnds_xyn _ _ _ _⟩

theorem shr (x y : Nibble) : Statement (.shr x y) :=
  ⟨⟨"SHR", 0x8006, 0xF00F⟩, by decide, rfl, maskEnds_xyn _ _ _ _⟩

theorem subn (x y : Nibble) : Statement (.subn x y) :=
  ⟨⟨"SUBN", 0x8007, 0xF00F⟩, by decide, rfl, maskEnds_xyn _ _ _ _⟩

theorem shl (x y : Nibble) : Statement (.shl x y) :=
  ⟨⟨"SHL", 0x800E, 0xF00F⟩, by decide, rfl, maskEnds_xyn _ _ _ _⟩

theorem sneVxVy (x y : Nibble) : Statement (.sneVxVy x y) :=
  ⟨⟨"SNE_VX_VY", 0x9000, 0xF00F⟩, by decide, rfl, maskEnds_xyn _ _ _ _⟩

theorem ldINnn (nnn : Addr12) : Statement (.ldINnn nnn) :=
  ⟨⟨"LD_I_NNN", 0xA000, 0xF000⟩, by decide, rfl, maskFamily_nnn _ _⟩

theorem jpV0 (nnn : Addr12) : Statement (.jpV0 nnn) :=
  ⟨⟨"JP_V0", 0xB000, 0xF000⟩, by decide, rfl, maskFamily_nnn _ _⟩

theorem rnd (x : Nibble) (kk : Byte) : Statement (.rnd x kk) :=
  ⟨⟨"RND", 0xC000, 0xF000⟩, by decide, rfl, maskFamily_xkk _ _ _⟩

theorem drw (x y n : Nibble) : Statement (.drw x y n) :=
  ⟨⟨"DRW", 0xD000, 0xF000⟩, by decide, rfl, maskFamily_xyn _ _ _ _⟩

theorem skp (x : Nibble) : Statement (.skp x) :=
  ⟨⟨"SKP", 0xE09E, 0xF0FF⟩, by decide, rfl, maskSelector_xkk _ _ _⟩

theorem sknp (x : Nibble) : Statement (.sknp x) :=
  ⟨⟨"SKNP", 0xE0A1, 0xF0FF⟩, by decide, rfl, maskSelector_xkk _ _ _⟩

theorem ldVxDt (x : Nibble) : Statement (.ldVxDt x) :=
  ⟨⟨"LD_VX_DT", 0xF007, 0xF0FF⟩, by decide, rfl, maskSelector_xkk _ _ _⟩

theorem ldVxK (x : Nibble) : Statement (.ldVxK x) :=
  ⟨⟨"LD_VX_K", 0xF00A, 0xF0FF⟩, by decide, rfl, maskSelector_xkk _ _ _⟩

theorem ldDtVx (x : Nibble) : Statement (.ldDtVx x) :=
  ⟨⟨"LD_DT_VX", 0xF015, 0xF0FF⟩, by decide, rfl, maskSelector_xkk _ _ _⟩

theorem ldStVx (x : Nibble) : Statement (.ldStVx x) :=
  ⟨⟨"LD_ST_VX", 0xF018, 0xF0FF⟩, by decide, rfl, maskSelector_xkk _ _ _⟩

theorem addIVx (x : Nibble) : Statement (.addIVx x) :=
  ⟨⟨"ADD_I_VX", 0xF01E, 0xF0FF⟩, by decide, rfl, maskSelector_xkk _ _ _⟩

theorem ldFVx (x : Nibble) : Statement (.ldFVx x) :=
  ⟨⟨"LD_F_VX", 0xF029, 0xF0FF⟩, by decide, rfl, maskSelector_xkk _ _ _⟩

theorem ldBVx (x : Nibble) : Statement (.ldBVx x) :=
  ⟨⟨"LD_B_VX", 0xF033, 0xF0FF⟩, by decide, rfl, maskSelector_xkk _ _ _⟩

theorem ldMemVx (x : Nibble) : Statement (.ldMemVx x) :=
  ⟨⟨"LD_MEM_VX", 0xF055, 0xF0FF⟩, by decide, rfl, maskSelector_xkk _ _ _⟩

theorem ldVxMem (x : Nibble) : Statement (.ldVxMem x) :=
  ⟨⟨"LD_VX_MEM", 0xF065, 0xF0FF⟩, by decide, rfl, maskSelector_xkk _ _ _⟩

end Sys2Proof.Laws.TableRow
end

