-- ==== Sys2Proof/Laws/Step.lean ====
section
/-! SUPPORT. What a cycle and a step can do, said once (the inversion lemmas that invariants are derived from). -/

namespace Sys2Proof.Machine

/-- The two things an instruction cycle can be: an instruction, or a word passed over with a diagnostic. -/
inductive CycleEffect (s t : State) : Prop where
  | ran (i : Instr) (decoded : decodeWord s.fetch = .ok i) (ran : exec i s.advancePc = .next t)
      (keeps : ExecKeeps s.advancePc t) (control : ControlEffect i s.advancePc t)
  | passed (r : Reject) (rejected : decodeWord s.fetch = .error r)
      (logged : t = s.advancePc.emit (.unknownOpcode s.fetch s.pc))

/-- What a cycle leaves to the frame, the host and the keypad. -/
theorem CycleEffect.keeps {s t : State} (h : CycleEffect s t) :
    t.params = s.params ∧ t.frameLeft = s.frameLeft ∧ t.inbox = s.inbox ∧ t.key = s.key := by
  cases h with
  | ran _ _ _ keeps => exact ⟨keeps.params, keeps.frameLeft, keeps.inbox, keeps.key⟩
  | passed _ _ logged => rw [logged]; exact ⟨rfl, rfl, rfl, rfl⟩

/-- Every instruction cycle answers a next state. -/
theorem instructionCycle_cases (s : State) : ∃ t, instructionCycle s = .next t ∧ CycleEffect s t := by
  cases h : decodeWord s.fetch with
  | ok i =>
    obtain ⟨t, ht, hk, hc⟩ := exec_cases i s.advancePc
    exact ⟨t, by simp only [instructionCycle, h, ht], .ran i h ht hk hc⟩
  | error r => exact ⟨_, by simp only [instructionCycle, h], .passed r h rfl⟩

/-- A cycle of a frame is a cycle and then `afterCycle`. -/
theorem frameCycle_cases (s : State) :
    ∃ t, instructionCycle s = .next t ∧ frameCycle s = .next t.afterCycle ∧ CycleEffect s t := by
  obtain ⟨t, ht, hc⟩ := instructionCycle_cases s
  exact ⟨t, ht, by simp only [frameCycle, ht], hc⟩

/-- The fetch reads PC, memory and the parameters alone. -/
theorem fetch_congr {s t : State} (hpc : t.pc = s.pc) (hm : t.mem = s.mem) (hp : t.params = s.params) : t.fetch = s.fetch := by
  simp [State.fetch, hpc, memRead_congr hm hp]

/-- A cycle behaves the same wherever it stands in a frame. -/
theorem instructionCycle_withFrameLeft {s t : State} (h : instructionCycle s = .next t) (n : Nat) :
    instructionCycle { s with frameLeft := n } = .next { t with frameLeft := n } := by
  have hf : ({ s with frameLeft := n } : State).fetch = s.fetch := fetch_congr rfl rfl rfl
  unfold instructionCycle at h ⊢
  rw [hf]
  cases hd : decodeWord s.fetch with
  | ok i =>
    rw [hd] at h
    exact exec_withFrameLeft (s := s.advancePc) h n
  | error r =>
    rw [hd] at h
    cases h; rfl

/-- The eight things a step can be: nothing, between frames of a silent host; the end of a frame found inactive, a cycle of a frame in
progress, the first cycle of a frame, a frame of no cycles, a frame refused because the machine is not active, a `step()` cycle, and any
other event. -/
inductive StepEffect (s t : State) : Prop where
  | silent (boundary : s.frameLeft = 0) (noEvent : s.inbox = []) (new : t = s)
  | broken (inFrame : s.frameLeft ≠ 0) (inactive : s.active = false) (new : t = { s with frameLeft := 0 })
  | inFrame (inFrame : s.frameLeft ≠ 0) (active : s.active = true) (u : State) (cycle : instructionCycle s = .next u)
      (effect : CycleEffect s u) (new : t = u.afterCycle)
  | first (rest : List HostEvent) (boundary : s.frameLeft = 0)
      (head : s.inbox = .runFrame :: rest) (active : s.active = true)
      (nonempty : s.params.cyclesPerFrame ≠ 0) (u : State)
      (cycle : instructionCycle { s with inbox := rest, frameLeft := s.params.cyclesPerFrame } = .next u)
      (effect : CycleEffect { s with inbox := rest, frameLeft := s.params.cyclesPerFrame } u) (new : t = u.afterCycle)
  | empty (rest : List HostEvent) (boundary : s.frameLeft = 0)
      (head : s.inbox = .runFrame :: rest) (active : s.active = true)
      (noCycles : s.params.cyclesPerFrame = 0) (new : t = ({ s with inbox := rest } : State).tick)
  | idle (rest : List HostEvent) (boundary : s.frameLeft = 0)
      (head : s.inbox = .runFrame :: rest) (inactive : s.active = false)
      (new : t = { s with inbox := rest })
  | single (rest : List HostEvent) (boundary : s.frameLeft = 0) (head : s.inbox = .step :: rest)
      (paused : s.run = .paused) (noFault : s.fault = .none)
      (cycle : instructionCycle { s with inbox := rest } = .next t) (effect : CycleEffect { s with inbox := rest } t)
  | event (e : HostEvent) (rest : List HostEvent) (boundary : s.frameLeft = 0) (head : s.inbox = e :: rest)
      (notRun : e ≠ .runFrame) (notStep : e = .step → ¬ (s.run = .paused ∧ s.fault = .none))
      (new : deliver e { s with inbox := rest } = .next t)

theorem beginFrame_cases (s : State) (rest : List HostEvent) (hb : s.frameLeft = 0)
    (hh : s.inbox = .runFrame :: rest) :
    ∃ t, beginFrame { s with inbox := rest } = .next t ∧ StepEffect s t := by
  cases ha : s.active with
  | false =>
    have : ({ s with inbox := rest } : State).active = false := ha
    exact ⟨_, by simp only [beginFrame, this]; rfl, .idle rest hb hh ha rfl⟩
  | true =>
    have ha' : ({ s with inbox := rest } : State).active = true := ha
    by_cases hc : s.params.cyclesPerFrame = 0
    · exact ⟨_, by simp only [beginFrame, ha', hc, if_true], .empty rest hb hh ha hc rfl⟩
    · obtain ⟨u, hu, hf, he⟩ := frameCycle_cases { s with inbox := rest, frameLeft := s.params.cyclesPerFrame }
      exact ⟨_, by simp only [beginFrame, ha', hc, if_true, if_false, hf], .first rest hb hh ha hc u hu he rfl⟩

/-- Every step answers a next state, and these are the things it can have done. -/
theorem step_cases (s : State) : ∃ t, step s = .next t ∧ StepEffect s t := by
  by_cases hb : s.frameLeft = 0
  · cases hi : s.inbox with
    | nil => exact ⟨s, by simp only [step, machineStep, hb, hi, if_true], .silent hb hi rfl⟩
    | cons e rest =>
      have hstep : step s = deliver e { s with inbox := rest } := by
        simp only [step, machineStep, hb, hi, if_true]
      cases e with
      | runFrame =>
        obtain ⟨t, ht, he⟩ := beginFrame_cases s rest hb hi
        exact ⟨t, hstep.trans ht, he⟩
      | step =>
        by_cases hp : s.run = .paused ∧ s.fault = .none
        · obtain ⟨t, ht, he⟩ := instructionCycle_cases { s with inbox := rest }
          refine ⟨t, hstep.trans ?_, .single rest hb hi hp.1 hp.2 ht he⟩
          have hc : (decide (s.run = .paused) && decide (s.fault = .none)) = true := by simp [hp.1, hp.2]
          show stepEvent { s with inbox := rest } = .next t
          unfold stepEvent
          rw [if_pos hc]
          exact ht
        · have : deliver .step { s with inbox := rest } = .next { s with inbox := rest } := by
            simp only [deliver, stepEvent]
            rw [if_neg (by simpa using fun a b => hp ⟨a, b⟩)]
          exact ⟨_, hstep.trans this, .event .step rest hb hi (by decide) (fun _ => hp) this⟩
      | _ => exact ⟨_, hstep, .event _ rest hb hi (by simp) (by simp) rfl⟩
  · cases ha : s.active with
    | false =>
      exact ⟨_, by simp only [step, machineStep, hb, continueFrame, ha, if_false]; rfl, .broken hb ha rfl⟩
    | true =>
      obtain ⟨u, hu, hf, he⟩ := frameCycle_cases s
      exact ⟨_, by simp only [step, machineStep, hb, continueFrame, ha, if_false, if_true, hf], .inFrame hb ha u hu he rfl⟩

/-! ### `afterCycle` -/

/-- The three things `run_frame` does after a cycle: break off, tick after the last one, or count it. -/
theorem afterCycle_cases (s : State) :
    (s.active = false ∧ s.afterCycle = { s with frameLeft := 0 }) ∨
    (s.active = true ∧ s.frameLeft ≤ 1 ∧ s.afterCycle = ({ s with frameLeft := 0 } : State).tick) ∨
    (s.active = true ∧ 1 < s.frameLeft ∧ s.afterCycle = { s with frameLeft := s.frameLeft - 1 }) := by
  unfold State.afterCycle
  cases ha : s.active with
  | false => exact .inl ⟨rfl, rfl⟩
  | true =>
    by_cases h : s.frameLeft ≤ 1
    · exact .inr (.inl ⟨rfl, h, by simp [h]⟩)
    · exact .inr (.inr ⟨rfl, by omega, by simp [h]⟩)

/-- What the end of a cycle leaves alone in any case. -/
theorem afterCycle_keeps (s : State) : s.afterCycle.params = s.params ∧ s.afterCycle.inbox = s.inbox ∧ s.afterCycle.run = s.run ∧
    s.afterCycle.fault = s.fault := by
  rcases afterCycle_cases s with ⟨_, h⟩ | ⟨_, _, h⟩ | ⟨_, _, h⟩ <;> rw [h] <;> exact ⟨rfl, rfl, rfl, rfl⟩

end Sys2Proof.Machine
end

