-- ==== Sys2Proof/Tests/Slice0.lean ====
section
/-! SUPPORT. The model's own tests: what is refused as ill formed; every constructor's decoding from a word written out in the fields of
30_encoding.md R92; one step per test, with the expected values of 95_test_vectors.md (part and vector named); and for every statement
with hypotheses a state and operands that meet them, each clause of it on a boundary value. -/

set_option maxRecDepth 10000

namespace Sys2Proof.Tests

open Sys2Proof Sys2Proof.Machine

/-! ### Building small states -/

/-- The next state of an outcome passes a check. -/
def gives (r : Result) (check : State → Bool) : Bool :=
  match r with
  | .next t => check t
  | .fault _ => false
  | .refused _ => false

/-- State.reset with these registers. -/
def withRegs (l : List (Nibble × Byte)) : State := l.foldl (fun s p => s.setV p.1 p.2) State.reset

/-- State.reset with these stack entries pushed in order. -/
def withStack (l : List Word) : State := l.foldl (fun s a => (s.push a).getD s) State.reset

/-- State.reset with the keys listed down. -/
def withKeys (l : List Nibble) : State := { State.reset with key := Vector.ofFn fun k => l.contains (BitVec.ofNat 4 k) }

/-- One step that runs the word at PC. -/
def runWord (s : State) (w : Nat) : Result := step (s.withFetchWord 16 w)

/-- The full stack of program P5 of 95_test_vectors.md. -/
def fullStack : State := withStack (List.replicate 16 0x0202)

/-- A display with the pixels listed lit. -/
def lit (l : List (Nat × Nat)) : Display := l.foldl (fun fb p => Display.flip fb p.1 p.2) Display.clear

/-- A word at 0x200, machine active, between frames, no event raised. -/
def atWord (hi lo : Byte) : State := State.reset.memWriteList 0x200 [hi, lo]

/-- The state waiting for a key of 95_test_vectors.md 2.9, for the register V1. -/
def waitingForKey : State := { State.reset with run := .awaitingKey, waitReg := 1 }

/-- A state stopped by a fault, as in the mirror case of P5. -/
def faulted : State := { State.reset with fault := .stackUnderflow }

/-! ### Well-formedness: each check refuses an ill-formed term -/

theorem test_wf_refuses_a_frame_of_no_cycles : ({ defaultParams with cyclesPerFrame := 0 } : Config.Params).wf = false := by decide
theorem test_wf_takes_one_cycle : ({ defaultParams with cyclesPerFrame := 1 } : Config.Params).wf = true := by decide
theorem test_wf_takes_the_default : State.reset.params.wf = true := by decide
theorem test_programFits_refuses_3585_bytes : programFits (List.replicate 3585 0) = false := by
  simp only [programFits, List.length_replicate]; decide
theorem test_programFits_takes_3584_bytes : programFits (List.replicate 3584 0) = true := by
  simp only [programFits, List.length_replicate]; decide
theorem test_memoryWf_refuses_a_listed_reset_byte : Memory.wf defaultFont [(0x300, 0)] = false := by decide
theorem test_memoryWf_refuses_a_repeat : Memory.wf defaultFont [(0x300, 1), (0x300, 2)] = false := by decide
theorem test_memoryWf_refuses_an_address_outside : Memory.wf defaultFont [(0x1000, 1)] = false := by decide

/-! ### Decoding: every constructor, from a word written out field by field (30_encoding.md R92, R96) -/

theorem test_decode_control :
    decodeTableWord 16 0b0000_0000_1110_1110 = some .ret ∧
    decodeTableWord 16 0b0001_1010_1011_1100 = some (.jp 0xABC) ∧
    decodeTableWord 16 0b0010_0011_0000_0001 = some (.call 0x301) ∧
    decodeTableWord 16 0b0011_1010_0100_0010 = some (.seVxKk 0xA 0x42) ∧
    decodeTableWord 16 0b0100_0011_0001_0001 = some (.sneVxKk 3 0x11) ∧
    decodeTableWord 16 0b0101_0001_0010_0000 = some (.seVxVy 1 2) ∧
    decodeTableWord 16 0b1001_0001_0010_0000 = some (.sneVxVy 1 2) ∧
    decodeTableWord 16 0b1011_0011_0000_0001 = some (.jpV0 0x301) := by decide

theorem test_decode_load_and_alu :
    decodeTableWord 16 0b0110_1010_0111_1111 = some (.ldVxKk 0xA 0x7F) ∧
    decodeTableWord 16 0b0111_0000_1111_1110 = some (.addVxKk 0 0xFE) ∧
    decodeTableWord 16 0b1000_0001_0010_0000 = some (.ldVxVy 1 2) ∧
    decodeTableWord 16 0b1000_0001_0010_0001 = some (.or 1 2) ∧
    decodeTableWord 16 0b1000_0001_0010_0010 = some (.and 1 2) ∧
    decodeTableWord 16 0b1000_0001_0010_0011 = some (.xor 1 2) ∧
    decodeTableWord 16 0b1000_0001_0010_0100 = some (.addVxVy 1 2) ∧
    decodeTableWord 16 0b1000_0001_0010_0101 = some (.sub 1 2) ∧
    decodeTableWord 16 0b1000_0001_0010_0110 = some (.shr 1 2) ∧
    decodeTableWord 16 0b1000_0001_0010_0111 = some (.subn 1 2) ∧
    decodeTableWord 16 0b1000_0001_0010_1110 = some (.shl 1 2) ∧
    decodeTableWord 16 0b1100_0011_0000_1111 = some (.rnd 3 0x0F) := by decide

theorem test_decode_index_memory_display :
    decodeTableWord 16 0b1010_0001_0010_0011 = some (.ldINnn 0x123) ∧
    decodeTableWord 16 0b1111_0001_0001_1110 = some (.addIVx 1) ∧
    decodeTableWord 16 0b1111_0010_0010_1001 = some (.ldFVx 2) ∧
    decodeTableWord 16 0b1111_0011_0011_0011 = some (.ldBVx 3) ∧
    decodeTableWord 16 0b1111_0100_0101_0101 = some (.ldMemVx 4) ∧
    decodeTableWord 16 0b1111_0101_0110_0101 = some (.ldVxMem 5) ∧
    decodeTableWord 16 0b0000_0000_1110_0000 = some .cls ∧
    decodeTableWord 16 0b1101_1010_1011_0001 = some (.drw 0xA 0xB 1) := by decide

theorem test_decode_keypad_and_timers :
    decodeTableWord 16 0b1110_0001_1001_1110 = some (.skp 1) ∧
    decodeTableWord 16 0b1110_0010_1010_0001 = some (.sknp 2) ∧
    decodeTableWord 16 0b1111_0011_0000_0111 = some (.ldVxDt 3) ∧
    decodeTableWord 16 0b1111_0001_0000_1010 = some (.ldVxK 1) ∧
    decodeTableWord 16 0b1111_0010_0001_0101 = some (.ldDtVx 2) ∧
    decodeTableWord 16 0b1111_0100_0001_1000 = some (.ldStVx 4) := by decide

/-- 2.10: the words named there are no instructions; bytes too few are rejected under another name. -/
theorem test_decode_refuses :
    [0x0000, 0x0123, 0x00E1, 0x00FF, 0x01E0, 0x5121, 0x9ABF, 0x8128, 0x8129, 0x812A, 0x812B, 0x812C, 0x812D, 0x812F, 0xE100, 0xE19F,
      0xE1A0, 0xF000, 0xF175, 0xF185, 0xF1FF, 0xF130].all (fun w => decodeTableWord 16 w == none) = true ∧
    decodeBytes [0x12] = .error .truncated := by decide

theorem test_encode : encodeBytes (.drw 0xA 0xB 1) = [0xDA, 0xB1] ∧ encodeBytes (.jp 0xABC) = [0x1A, 0xBC] := by decide

/-! ### Fetch and PC (2.1) -/

theorem test_fetch_at_odd_pc : gives (runWord { State.reset with pc := 0x201 } 0x6007) (fun t => t.getV 0 == 7 && t.pc == 0x203) = true := by
  decide

/-- The second byte of the word is the cell 0x000: the address after 0xFFF wraps, PC does not. -/
theorem test_fetch_across_the_end :
    gives (step { (State.reset.memWrite 0xFFF 0x61) with pc := 0xFFF, inbox := [.runFrame] }) (fun t => t.getV 1 == State.reset.memRead 0 && t.pc == 0x1001) =
      true := by decide

theorem test_pc_advances_modulo_65536 :
    gives (runWord { State.reset with pc := 0xFFFE } 0x6209) (fun t => t.getV 2 == 9 && t.pc == 0 && t.memRead 0xFFE == 0x62) = true := by
  decide

/-! ### Control transfer (2.2, 2.3) -/

theorem test_jp : gives (runWord State.reset 0x1FFF) (fun t => t.pc == 0xFFF) = true := by decide

theorem test_call : gives (runWord { (withStack (List.replicate 15 0)) with pc := 0xABA } 0x2ABC)
    (fun t => t.stack[15] == 0xABC && t.sp == 16 && t.pc == 0xABC) = true := by decide

theorem test_call_overflows : gives (runWord fullStack 0x2300)
    (fun t => t.fault == .stackOverflow && t.pc == 0x200 && t.sp == 16 && t.stack == fullStack.stack && t.run == .running) = true := by
  decide

theorem test_ret : gives (runWord { (withStack [0, 0, 0xF01]) with pc := 0x400 } 0x00EE)
    (fun t => t.pc == 0xF01 && t.sp == 2 && t.stack[2] == 0xF01) = true := by decide

theorem test_ret_underflows : gives (runWord State.reset 0x00EE)
    (fun t => t.fault == .stackUnderflow && t.pc == 0x200 && t.sp == 0) = true := by decide

theorem test_jpV0 : gives (runWord (withRegs [(0, 0xFF), (3, 1)]) 0xBFFF) (fun t => t.pc == 0x10FE) = true := by decide

theorem test_seVxKk_taken : gives (runWord (withRegs [(0xA, 0x42)]) 0x3A42) (fun t => t.pc == 0x204) = true := by decide
theorem test_seVxKk_not_taken : gives (runWord (withRegs [(0xA, 0x43)]) 0x3A42) (fun t => t.pc == 0x202) = true := by decide
theorem test_sneVxKk_not_taken : gives (runWord (withRegs [(0xA, 0x42)]) 0x4A42) (fun t => t.pc == 0x202) = true := by decide
theorem test_sneVxKk_taken : gives (runWord (withRegs [(0xA, 0x43)]) 0x4A42) (fun t => t.pc == 0x204) = true := by decide
theorem test_seVxVy_taken : gives (runWord (withRegs [(1, 7), (2, 7)]) 0x5120) (fun t => t.pc == 0x204) = true := by decide
theorem test_seVxVy_not_taken : gives (runWord (withRegs [(1, 7), (2, 8)]) 0x5120) (fun t => t.pc == 0x202) = true := by decide
theorem test_sneVxVy_taken : gives (runWord (withRegs [(1, 7), (2, 8)]) 0x9120) (fun t => t.pc == 0x204) = true := by decide
theorem test_sneVxVy_not_taken : gives (runWord State.reset 0x9330) (fun t => t.pc == 0x202) = true := by decide

theorem test_skip_wraps : gives (runWord { State.reset with pc := 0xFFFC } 0x3000) (fun t => t.pc == 0) = true := by decide

/-! ### Load, logic, arithmetic (2.4, 2.5, 2.6) -/

theorem test_ldVxKk : gives (runWord State.reset 0x6A7F) (fun t => t.getV 0xA == 0x7F) = true := by decide
theorem test_addVxKk_wraps_without_flag : gives (runWord (withRegs [(3, 250), (15, 1)]) 0x730A) (fun t => t.getV 3 == 4 && t.getV 15 == 1) =
    true := by decide
theorem test_ldVxVy : gives (runWord (withRegs [(1, 1), (2, 9)]) 0x8120) (fun t => t.getV 1 == 9 && t.getV 2 == 9) = true := by decide
theorem test_or : gives (runWord (withRegs [(1, 0xF0), (2, 0x0F), (15, 1)]) 0x8121) (fun t => t.getV 1 == 0xFF && t.getV 15 == 1) = true := by
  decide
theorem test_and : gives (runWord (withRegs [(1, 0xF0), (2, 0x3C), (15, 1)]) 0x8122) (fun t => t.getV 1 == 0x30 && t.getV 15 == 1) = true := by
  decide
theorem test_xor : gives (runWord (withRegs [(1, 0xF0), (2, 0x3C), (15, 1)]) 0x8123) (fun t => t.getV 1 == 0xCC && t.getV 15 == 1) = true := by
  decide
theorem test_add_carries : gives (runWord (withRegs [(1, 200), (2, 100)]) 0x8124)
    (fun t => t.getV 1 == 44 && t.getV 15 == 1 && t.getV 2 == 100) = true := by decide
/-- VF as destination: the sum stands, not the carry (D4). -/
theorem test_add_into_vf : gives (runWord (withRegs [(15, 200), (2, 100)]) 0x8F24) (fun t => t.getV 15 == 44) = true := by decide
theorem test_sub_equal_is_no_flag : gives (runWord (withRegs [(1, 7), (2, 7), (15, 9)]) 0x8125) (fun t => t.getV 1 == 0 && t.getV 15 == 0) =
    true := by decide
/-- VF as second operand: the old VF is the operand. -/
theorem test_sub_vf_operand : gives (runWord (withRegs [(1, 200), (15, 100)]) 0x81F5) (fun t => t.getV 1 == 100 && t.getV 15 == 1) = true := by
  decide
theorem test_subn : gives (runWord (withRegs [(1, 10), (2, 20)]) 0x8127) (fun t => t.getV 1 == 10 && t.getV 15 == 1) = true := by decide
theorem test_subn_borrows : gives (runWord (withRegs [(1, 255), (15, 1)]) 0x8127) (fun t => t.getV 1 == 1 && t.getV 15 == 0) = true := by
  decide
theorem test_shr_reads_vx : gives (runWord (withRegs [(1, 0x05), (2, 0xF0)]) 0x8126) (fun t => t.getV 1 == 2 && t.getV 15 == 1) = true := by
  decide
theorem test_shr_of_vf : gives (runWord (withRegs [(15, 3)]) 0x8FF6) (fun t => t.getV 15 == 1) = true := by decide
theorem test_shl_reads_vx : gives (runWord (withRegs [(1, 0x81), (2, 0x01)]) 0x812E) (fun t => t.getV 1 == 2 && t.getV 15 == 1) = true := by
  decide
theorem test_shl_of_vf : gives (runWord (withRegs [(15, 0xC0)]) 0x8FFE) (fun t => t.getV 15 == 0x80) = true := by decide

/-- 0xC300 with any random byte: V3 = 0, and one byte is drawn. -/
theorem test_rnd : ∃ t, exec (.rnd 3 0x00) State.reset = .next t ∧ t.getV 3 = 0 ∧ t.randCount = 1 :=
  ⟨_, rfl, BitVec.and_zero, rfl⟩

/-! ### Index register and memory (2.7) -/

theorem test_ldINnn : gives (runWord State.reset 0xA123) (fun t => t.i == 0x123) = true := by decide
theorem test_addIVx_is_not_masked : gives (runWord { (withRegs [(1, 5)]) with i := 0xFFE } 0xF11E)
    (fun t => t.i == 0x1003 && t.getV 15 == 0) = true := by decide
theorem test_addIVx_wraps : gives (runWord { (withRegs [(1, 1)]) with i := 0xFFFF } 0xF11E) (fun t => t.i == 0) = true := by decide
theorem test_ldFVx_whole_byte : gives (runWord (withRegs [(0, 0xFF)]) 0xF029) (fun t => t.i == 1275) = true := by decide
theorem test_ldBVx_wraps : gives (runWord { (withRegs [(0, 157)]) with i := 0xFFF } 0xF033)
    (fun t => t.memRead 0xFFF == 1 && t.memRead 0 == 5 && t.memRead 1 == 7 && t.i == 0xFFF) = true := by decide
theorem test_ldBVx_255 : gives (runWord { (withRegs [(0, 255)]) with i := 0x300 } 0xF033)
    (fun t => t.memRead 0x300 == 2 && t.memRead 0x301 == 5 && t.memRead 0x302 == 5) = true := by decide
theorem test_ldMemVx : gives (runWord { (withRegs [(0, 0x11), (1, 0x22), (2, 0x33), (3, 0x44)]) with i := 0x400 } 0xF255)
    (fun t => t.memReadList 0x400 4 == [0x11, 0x22, 0x33, 0] && t.i == 0x400) = true := by decide
theorem test_ldMemVx_wraps : gives (runWord { (withRegs [(0, 0xAA), (1, 0xBB)]) with i := 0xFFF } 0xF155)
    (fun t => t.memRead 0xFFF == 0xAA && t.memRead 0 == 0xBB) = true := by decide
theorem test_ldVxMem : gives (runWord { ((withRegs [(3, 0x77)]).memWriteList 0x300 [1, 5, 7, 9]) with i := 0x300 } 0xF265)
    (fun t => t.getV 0 == 1 && t.getV 1 == 5 && t.getV 2 == 7 && t.getV 3 == 0x77 && t.i == 0x300) = true := by decide
/-- The first 16 bytes of the default FONT (log 6). -/
theorem test_ldVxMem_all : gives (runWord State.reset 0xFF65)
    (fun t => t.v == #v[0xF0, 0x90, 0x90, 0x90, 0xF0, 0x20, 0x60, 0x20, 0x20, 0x70, 0xF0, 0x10, 0xF0, 0x80, 0xF0, 0xF0]) = true := by
  decide

/-! ### Display (2.8) -/

theorem test_cls : gives (runWord { (withRegs [(15, 1)]) with fb := lit [(0, 0), (63, 31)] } 0x00E0)
    (fun t => t.fb == Display.clear && t.getV 15 == 1) = true := by decide
/-- Source example S6, and the start beyond the right edge that wraps. -/
theorem test_drw_wraps : gives (runWord { ((withRegs [(0xA, 60), (15, 1)]).memWrite 0x300 0xFF) with i := 0x300 } 0xDAB1)
    (fun t => t.fb == lit [(60, 0), (61, 0), (62, 0), (63, 0), (0, 0), (1, 0), (2, 0), (3, 0)] && t.getV 15 == 0) = true := by decide
theorem test_drw_collides : gives (runWord { (State.reset.memWrite 0x300 0xC0) with i := 0x300, fb := lit [(1, 0)] } 0xD011)
    (fun t => t.fb == lit [(0, 0)] && t.getV 15 == 1) = true := by decide

/-! ### Keypad and timers (2.9) -/

theorem test_skp_down : gives (runWord { ((withKeys [10]).setV 1 0x0A) with pc := 0x220 } 0xE19E) (fun t => t.pc == 0x224) = true := by
  decide
/-- A key number above 15 is never down (D7). -/
theorem test_skp_no_such_key : gives (runWord { ((withKeys [10]).setV 1 0x1A) with pc := 0x220 } 0xE19E) (fun t => t.pc == 0x222) = true := by
  decide
theorem test_sknp_down : gives (runWord { ((withKeys [10]).setV 1 0x0A) with pc := 0x220 } 0xE1A1) (fun t => t.pc == 0x222) = true := by
  decide
theorem test_sknp_no_such_key : gives (runWord { ((withKeys [10]).setV 1 0x1A) with pc := 0x220 } 0xE1A1) (fun t => t.pc == 0x224) = true := by
  decide
theorem test_ldVxDt : gives (runWord { State.reset with dt := 0x2A } 0xF307) (fun t => t.getV 3 == 0x2A && t.dt == 0x2A) = true := by decide
theorem test_ldDtVx : gives (runWord (withRegs [(0, 5)]) 0xF015) (fun t => t.dt == 5 && t.st == 0) = true := by decide
theorem test_ldStVx : gives (runWord (withRegs [(0, 0x1E)]) 0xF018) (fun t => t.st == 0x1E && t.dt == 0) = true := by decide
theorem test_ldVxK : gives (runWord { (withRegs [(1, 9)]) with pc := 0x204, keyEvt := ⟨true, 3⟩ } 0xF10A)
    (fun t => t.waitReg == 1 && t.keyEvt == ⟨false, 0⟩ && t.run == .awaitingKey && t.pc == 0x206 && t.getV 1 == 9 && t.frameLeft == 0) =
    true := by decide

/-! ### Frames, events, reset (2.9 to 2.11) -/

theorem test_unrecognised_word : gives (runWord State.reset 0x8128)
    (fun t => t.pc == 0x202 && t.outbox == [.unknownOpcode 0x8128 0x200] && t.fault == .none) = true := by decide

/-- With no event raised nothing executes and no timer counts (70_reset_and_hazards.md R286), and with a `run_frame` raised it does. -/
theorem test_silent_host :
    gives (step { atWord 0x60 0x05 with dt := 3 }) (fun t => t == { atWord 0x60 0x05 with dt := 3 }) = true ∧
    gives (step { atWord 0x60 0x05 with inbox := [.runFrame, .pause] }) (fun t => t.getV 0 == 5 && t.frameLeft == 9 && t.inbox == [.pause]) =
      true := by decide

/-- A frame of one cycle ends in one tick; DT above 0 counts down, ST stays at 0. -/
theorem test_frame_of_one_cycle_ticks :
    gives (runWord { State.reset with dt := 3, params := { defaultParams with cyclesPerFrame := 1 } } 0x7001)
      (fun t => t.dt == 2 && t.st == 0 && t.getV 0 == 1 && t.frameLeft == 0) = true := by decide

/-- The key wait in a frame of one cycle: no tick (D8). -/
theorem test_key_wait_skips_the_tick :
    gives (runWord { State.reset with dt := 5, params := { defaultParams with cyclesPerFrame := 1 } } 0xF10A)
      (fun t => t.dt == 5 && t.run == .awaitingKey) = true := by decide

theorem test_key_press_resolves : gives (step { waitingForKey with inbox := [.setKey 7 true] })
    (fun t => t.getV 1 == 7 && t.run == .running && t.key[7] && t.keyEvt == ⟨false, 0⟩ && t.inbox == []) = true := by decide

theorem test_held_key_is_no_edge : gives (step { (withKeys [7]) with run := .awaitingKey, waitReg := 1, inbox := [.setKey 7 true] })
    (fun t => t.getV 1 == 0 && t.run == .awaitingKey) = true := by decide

theorem test_pause_is_deaf_in_a_key_wait : gives (step { waitingForKey with inbox := [.pause] }) (fun t => t.run == .awaitingKey) = true := by
  decide

theorem test_single_step : gives (step { (State.reset.memWriteList 0x200 [0x60, 0x05]) with run := .paused, dt := 2, inbox := [.step] })
    (fun t => t.getV 0 == 5 && t.pc == 0x202 && t.run == .paused && t.dt == 2) = true := by decide

theorem test_load : gives (step { State.reset with pc := 0x300, inbox := [.load [0x12, 0x00, 0x70]] })
    (fun t => t.memReadList 0x1FF 5 == [0, 0x12, 0, 0x70, 0] && t.pc == 0x200 && t.outbox == [.loaded .ok]) = true := by decide

theorem test_load_too_large : (State.reset.load (List.replicate 3585 0)).2 = .programTooLarge := by
  rw [State.load, test_programFits_refuses_3585_bytes]; rfl

/-- Source example S9. -/
theorem test_reset : gives (step { (fullStack.memWrite 0 0x55) with fault := .stackOverflow, inbox := [.reset] })
    (fun t => t.fault == .none && t.sp == 0 && t.pc == 0x200 && t.mem == []) = true := by decide

theorem test_outputs : State.displayBit { State.reset with fb := lit [(5, 2)] } 133 = true ∧ (withKeys [3]).anyDown = true ∧
    FaultLatch.code .stackUnderflow = 2 ∧ HostOutput.code (.unknownOpcode 0 0) = 4 ∧ LoadStatus.code .programTooLarge = 3 := by decide

/-! ### Witnesses: states and operands that meet the hypotheses of the statements, each clause on a boundary value -/

/-- Memory with one stored byte. -/
def oneByte : State := State.reset.memWrite 0x300 0x55

/-- A jump to itself at 0x200. -/
def idling : State := State.reset.memWriteList 0x200 [0x12, 0x00]

theorem witness_EncodeOfDecodeIsTheWord : decodeBytes [0xDA, 0xB1, 0x00] = .ok (.drw 0xA 0xB 1, [0x00]) := by decide

theorem witness_DecodingIsExactMatchOfOneTableRow :
    (⟨"SE_VX_VY", 0x5000, 0xF00F⟩ : OpcodeRow) ∈ opcodeTable ∧ (0x5FF0 : Word) &&& 0xF00F = 0x5000 := by decide

/-- One word for each disjunct of the list, and its rejection. -/
theorem witness_UnrecognisedWordsAreTheListedOnes :
    (opFamily 0x0123 = 0x0 ∧ (0x0123 : Word) ≠ 0x00E0 ∧ (0x0123 : Word) ≠ 0x00EE) ∧ (opFamily 0x512F = 0x5 ∧ opN 0x512F ≠ 0) ∧
    (opFamily 0x812F = 0x8 ∧ opN 0x812F ∈ [0x8#4, 0x9, 0xA, 0xB, 0xC, 0xD, 0xF]) ∧ (opFamily 0x9AB1 = 0x9 ∧ opN 0x9AB1 ≠ 0) ∧
    (opFamily 0xE19F = 0xE ∧ opKk 0xE19F ≠ 0x9E ∧ opKk 0xE19F ≠ 0xA1) ∧
    (opFamily 0xF1FF = 0xF ∧ opKk 0xF1FF ∉ [0x07#8, 0x0A, 0x15, 0x18, 0x1E, 0x29, 0x33, 0x55, 0x65]) ∧
    decodeWord 0xF1FF = .error (.unrecognised 0xF1FF) := by decide

theorem witness_StoredBytesReadBack : ([0xAA, 0xBB] : List Byte).length ≤ Config.memSize := by decide

theorem witness_MemoriesThatReadAlikeAreEqual :
    Memory.wf defaultFont oneByte.mem = true ∧ Memory.wf defaultFont (oneByte.memWrite 0x301 0).mem = true ∧
    ∀ a, a < Config.memSize → Memory.read defaultFont oneByte.mem a = Memory.read defaultFont (oneByte.memWrite 0x301 0).mem a :=
  ⟨by decide, by decide, fun _ _ => rfl⟩

theorem witness_StoreIsSeenByTheNextFetch :
    ∃ s : State, 1 ≤ (1 : Nibble).toNat ∧ s.i = s.pc := ⟨{ State.reset with i := 0x200 }, by decide⟩

theorem witness_StepRunsTheDecodedInstruction_in_a_frame :
    ∃ s : State, decodeBytes [s.memRead s.pc.toNat, s.memRead (s.pc.toNat + 1)] = .ok (.ldVxKk 0 5, []) ∧ s.active = true ∧
      s.frameLeft ≠ 0 := ⟨{ atWord 0x60 0x05 with frameLeft := 1 }, by decide⟩

theorem witness_StepRunsTheDecodedInstruction_at_the_start_of_a_frame :
    ∃ s : State, decodeBytes [s.memRead s.pc.toNat, s.memRead (s.pc.toNat + 1)] = .ok (.ldVxKk 0 5, []) ∧ s.active = true ∧
      s.frameLeft = 0 ∧ s.inbox = [.runFrame, .pause] ∧ s.params.cyclesPerFrame ≠ 0 :=
  ⟨{ atWord 0x60 0x05 with inbox := [.runFrame, .pause] }, by decide⟩

/-- A silent host, and one event of each kind in front. -/
theorem witness_StepDeliversTheNextHostEvent :
    (∃ s : State, s.frameLeft = 0 ∧ s.inbox = []) ∧
    ∀ e : HostEvent, ∃ s : State, s.frameLeft = 0 ∧ s.inbox = [e, .runFrame] :=
  ⟨⟨State.reset, rfl, rfl⟩, fun e => ⟨{ State.reset with inbox := [e, .runFrame] }, rfl, rfl⟩⟩

theorem witness_FrameCountsTicksOrBreaksAfterACycle :
    (∃ s : State, ¬ (s.run = .running ∧ s.fault = .none)) ∧
    (∃ s : State, s.run = .running ∧ s.fault = .none ∧ 1 < s.frameLeft) ∧
    (∃ s : State, s.run = .running ∧ s.fault = .none ∧ s.frameLeft ≤ 1) :=
  ⟨⟨faulted, by decide⟩, ⟨{ State.reset with frameLeft := 2 }, by decide⟩, ⟨{ State.reset with frameLeft := 1 }, by decide⟩⟩

theorem witness_UnrecognisedWordIsLoggedAndPassedOver : decodeWord State.reset.fetch = .error (.unrecognised 0) := by decide

theorem witness_StepsOfAFrameAreRunFrame :
    (∃ s : State, s.frameLeft = 0 ∧ s.inbox = [.runFrame, .pause]) ∧
    (∃ s : State, s.frameLeft = 0 ∧ s.inbox = [.runFrame] ∧ s.params.cyclesPerFrame ≠ 0) :=
  ⟨⟨{ State.reset with inbox := [.runFrame, .pause] }, rfl, rfl⟩, ⟨{ State.reset with inbox := [.runFrame] }, by decide⟩⟩

theorem witness_SuspendedMachineIgnoresFrames :
    (waitingForKey.run ≠ .running ∨ waitingForKey.fault ≠ .none) ∧ (faulted.run ≠ .running ∨ faulted.fault ≠ .none) ∧
    ∃ s : State, (s.run ≠ .running ∨ s.fault ≠ .none) ∧ s.frameLeft = 0 ∧ s.inbox = [.runFrame] :=
  ⟨by decide, by decide, { faulted with inbox := [.runFrame] }, by decide⟩

theorem witness_EveryStepKeepsTheInvariant : ∃ s : State, s.Inv ∧ s.frameLeft = 3 ∧ s.mem ≠ [] :=
  ⟨{ oneByte with frameLeft := 3 }, by constructor <;> decide, by decide⟩

theorem witness_FaultStopsEverythingUntilReset :
    ({ faulted with inbox := [.reset] } : State).fault ≠ .none ∧ ({ faulted with inbox := [.load []] } : State).fault ≠ .none ∧
    ({ faulted with inbox := [.pause] } : State).fault ≠ .none := by decide

/-- A step changes RUN for each row of the table: a key wait in a frame and in a single step, pause, run, a key press, reset. -/
theorem witness_RunStateFollowsTheTransitionTable :
    gives (step { atWord 0xF1 0x0A with inbox := [.runFrame] }) (fun t => t.run != .running) = true ∧
    gives (step { atWord 0xF1 0x0A with run := .paused, inbox := [.step] }) (fun t => t.run != .paused) = true ∧
    gives (step { State.reset with inbox := [.pause] }) (fun t => t.run != .running) = true ∧
    gives (step { State.reset with run := .paused, inbox := [.run] }) (fun t => t.run != .paused) = true ∧
    gives (step { waitingForKey with inbox := [.setKey 0 true] }) (fun t => t.run != .awaitingKey) = true ∧
    gives (step { waitingForKey with inbox := [.reset] }) (fun t => t.run != .awaitingKey) = true := by decide

/-- A step changes a byte by each cause: both stores, at the last cell, `load` and `reset`. -/
theorem witness_MemoryChangesOnlyByStoresLoadAndReset :
    gives (step { ((atWord 0xF0 0x33).setV 0 100) with i := 0xFFF, frameLeft := 1 }) (fun t => t.memRead 0xFFF != 0) = true ∧
    gives (step { ((atWord 0xF0 0x55).setV 0 100) with i := 0xFFF, frameLeft := 1 }) (fun t => t.memRead 0xFFF != 0) = true ∧
    gives (step { State.reset with inbox := [.load [1]] }) (fun t => t.memRead 0x200 != 0) = true ∧
    gives (step { oneByte with inbox := [.reset] }) (fun t => t.memRead 0x300 != 0x55) = true := by decide

theorem witness_ParametersNeverChange : ∃ s t : State, step s = .next t :=
  ⟨{ State.reset with inbox := [.pause] }, _, rfl⟩

theorem witness_NoEventLandsInsideAFrame : ∃ s : State, s.frameLeft ≠ 0 ∧ s.inbox ≠ [] :=
  ⟨{ State.reset with frameLeft := 1, inbox := [.pause] }, by decide⟩

/-- A press of a key already down meets the hypotheses. -/
theorem witness_WaitingChangesNothingWithoutAnEdge :
    ∃ s : State, s.run = .awaitingKey ∧ s.fault = .none ∧ s.inbox.head? = some (.setKey 15 true) ∧ s.inbox.head? ≠ some .reset ∧
      (∀ bytes, s.inbox.head? ≠ some (.load bytes)) ∧
      (∀ k : Nibble, s.inbox.head? = some (.setKey k true) → s.key[k.toNat]'k.isLt = true) :=
  ⟨{ (withKeys [15]) with run := .awaitingKey, inbox := [.setKey 15 true] }, rfl, rfl, rfl, by decide, fun _ => by simp,
    fun k h => by cases h; decide⟩

/-- Within a frame with an event waiting, under a silent host, and at the start of a frame. -/
theorem witness_IdleRunStaysIdle :
    (∃ s : State, s.idleAt 0x200 ∧ s.frameLeft ≠ 0 ∧ s.inbox = [.pause]) ∧ (∃ s : State, s.idleAt 0x200 ∧ s.inbox = []) ∧
    (∃ s : State, s.idleAt 0x200 ∧ s.inbox.head? = some .runFrame) :=
  ⟨⟨{ idling with frameLeft := 1, inbox := [.pause] }, ⟨by decide, by decide, by decide⟩, by decide⟩,
    ⟨idling, ⟨by decide, by decide, by decide⟩, rfl⟩,
    ⟨{ idling with inbox := [.runFrame] }, ⟨by decide, by decide, by decide⟩, rfl⟩⟩

theorem witness_PushStoresAtSpOrOverflows : fullStack.sp.val = 16 ∧ (withStack (List.replicate 15 0)).sp.val < 16 := by decide

theorem witness_CallPushesTheReturnAddress : (withStack (List.replicate 15 0)).sp.val < 16 := by decide

theorem witness_ReturnPopsTheTopIntoPc : 0 < (withStack [0xF01]).sp.val := by decide

theorem witness_CallThenReturnComesBack : (withStack (List.replicate 15 0)).sp.val < 16 := by decide

theorem witness_StackFaultsLatchAndUndoTheCycle :
    (∃ s : State, decodeWord s.fetch = .ok (.call 0x200) ∧ s.sp.val = 16) ∧
    (∃ s : State, decodeWord s.fetch = .ok .ret ∧ s.sp.val = 0) :=
  ⟨⟨fullStack.memWriteList 0x200 [0x22, 0x00], by decide⟩, ⟨atWord 0x00 0xEE, by decide⟩⟩

theorem witness_ImmediateSkips : (withRegs [(15, 1)]).getV 15 = 1 ∧ (withRegs [(15, 1)]).getV 0 ≠ 1 := by decide

theorem witness_RegisterSkips :
    (withRegs [(1, 7), (2, 7)]).getV 1 = (withRegs [(1, 7), (2, 7)]).getV 2 ∧ (withRegs [(1, 7)]).getV 1 ≠ (withRegs [(1, 7)]).getV 2 := by
  decide

/-- Key 15 down, and 31, whose low nibble is 15, no key at all. -/
theorem witness_KeySkips :
    (∃ k : Nibble, (((withKeys [15]).setV 1 15).getV 1).toNat = k.toNat ∧ (withKeys [15]).key[k.toNat]'k.isLt = true) ∧
    ¬ ∃ k : Nibble, (((withKeys [15]).setV 1 31).getV 1).toNat = k.toNat ∧ (withKeys [15]).key[k.toNat]'k.isLt = true :=
  ⟨⟨15, by decide⟩, by decide⟩

theorem witness_ImmediateLoadAndAdd : (14 : Nibble) ≠ 15 := by decide

theorem witness_MoveAndLogic : (14 : Nibble) ≠ 15 := by decide

theorem witness_AddAndSubtractWithFlag : ∃ x r : Nibble, x ≠ 15 ∧ r ≠ x ∧ r ≠ 15 := ⟨14, 13, by decide⟩

theorem witness_ShiftsWithFlag : ∃ x r : Nibble, x ≠ 15 ∧ r ≠ x ∧ r ≠ 15 := ⟨14, 13, by decide⟩

theorem witness_RandomByteIsMasked : (0x0F : Byte).getLsbD 4 = false ∧ (0 : Nibble) ≠ 15 := by decide

/-- The bytes stored wrap to the cells 0 and 1; the cell 2 is outside them. -/
theorem witness_BcdStoresThreeDigits : ∃ s : State, s.i = 0xFFF ∧ ∀ k, k < 3 → 2 ≠ s.iCell k :=
  ⟨{ State.reset with i := 0xFFF }, rfl, by decide⟩

/-- Sixteen registers stored across the end of memory; the cell 15 is outside them. -/
theorem witness_RegistersAreStoredFromI :
    ∃ (s : State) (r : Nibble), s.i = 0xFFF ∧ r.toNat ≤ (15 : Nibble).toNat ∧ ∀ k, k ≤ (15 : Nibble).toNat → 15 ≠ s.iCell k :=
  ⟨{ State.reset with i := 0xFFF }, 15, rfl, by decide, by decide⟩

theorem witness_RegistersAreLoadedFromI : ∃ x r q : Nibble, r.toNat ≤ x.toNat ∧ x.toNat < q.toNat := ⟨14, 14, 15, by decide⟩

/-- A sprite of one row at the right edge covers the pixel (0, 31) and not the pixel (7, 31). -/
theorem witness_DrawXorsTheSprite_pixels :
    SpriteCovers 255 255 [0xFF] 0 31 ∧ ¬ SpriteCovers 255 255 [0xFF] 7 31 := by
  refine ⟨⟨0, 1, by decide, ⟨0xFF, rfl, by decide⟩, by decide, by decide⟩, ?_⟩
  rintro ⟨r, c, hc, -, hx, -⟩
  simp only [Config.dispW] at hx
  omega

/-- A covered pixel that is lit, and a display on which none is. -/
theorem witness_DrawXorsTheSprite_collision :
    (∃ X Y, X < Config.dispW ∧ Y < Config.dispH ∧ SpriteCovers 255 255 [0xFF] X Y ∧ Display.pixel (lit [(0, 31)]) X Y = true) ∧
    ∀ X Y, X < Config.dispW → Y < Config.dispH → SpriteCovers 255 255 [0xFF] X Y → Display.pixel Display.clear X Y = false :=
  ⟨⟨0, 31, by decide, by decide, witness_DrawXorsTheSprite_pixels.1, by decide⟩,
    fun _ _ _ _ _ => by simp [Display.pixel, Display.clear]⟩

theorem witness_DrawingTwiceRestoresTheDisplay :
    (List.replicate 15 (0x80 : Byte)).length ≤ 15 ∧ (blit Display.clear 0 20 (List.replicate 15 0x80)).2 = false := by decide

theorem witness_TimerTransfers : (14 : Nibble) ≠ 15 := by decide

/-- A press that ends a wait, a press when nothing waits, a release, and a press of a key already down. -/
theorem witness_SetKeyResolvesAWaitOnAnEdge :
    (waitingForKey.key[15] = false ∧ waitingForKey.run = .awaitingKey ∧ waitingForKey.fault = .none) ∧
    (State.reset.key[15] = false ∧ ¬ (State.reset.run = .awaitingKey ∧ State.reset.fault = .none)) ∧
    ¬ (false = true ∧ State.reset.key[15] = false) ∧ ¬ (true = true ∧ (withKeys [15]).key[15] = false) := by decide

theorem witness_SingleStepRunsOneCycleWithoutATick :
    (∃ s : State, s.run = .paused ∧ s.fault = .none ∧ decodeWord s.fetch = .ok (.ldVxKk 0 5)) ∧
    (∃ s : State, ¬ (s.run = .paused ∧ s.fault = .none)) :=
  ⟨⟨{ atWord 0x60 0x05 with run := .paused }, by decide⟩, ⟨{ faulted with run := .paused }, by decide⟩⟩

theorem witness_LoadCopiesTheProgramOrNothing :
    (List.replicate 3584 (0 : Byte)).length ≤ 3584 ∧ 3584 < (List.replicate 3585 (0 : Byte)).length := by
  simp only [List.length_replicate]; decide

/-- The last byte of the font and the first byte above it. -/
theorem witness_ResetRestoresEveryPiece : 79 < 80 ∧ 80 < Config.memSize := by decide

theorem witness_FrameOfControlTransfers : (withStack (List.replicate 15 0)).sp.val < 16 ∧ 0 < (withStack [0xF01]).sp.val := by decide

/-- VF changes by a flag writer, by a draw, and by name. -/
theorem witness_VfIsWrittenOnlyByFlagWritersOrByName :
    gives (exec (.addVxVy 1 2) (withRegs [(1, 200), (2, 100)])) (fun t => t.getV 15 != 0) = true ∧
    gives (exec (.drw 0 0 0) (withRegs [(15, 1)])) (fun t => t.getV 15 != 1) = true ∧
    gives (exec (.ldVxKk 15 5) State.reset) (fun t => t.getV 15 != 0) = true := by decide

end Sys2Proof.Tests
end

/-! PROOFS. The stack operations of 10_state.md R27, R28 and the writers of VF of 10_state.md R38. -/

namespace Sys2Proof.Machine

/-! ### The stack -/

/-- A push below the depth limit touches STACK and SP alone (10_state.md R27). -/
theorem push_frame {s t : State} {a : Word} (h : s.sp.val < 16) (ht : s.push a = some t) : UnchangedExcept [.stack] s t := by
  rw [push_of_lt s a h] at ht
  cases ht
  constructor
  case stack => exact fun hs => absurd (List.mem_singleton_self _) hs
  all_goals intros; rfl

/-- Settles O25: below the limit by the equation of `push`, on the full stack by the one instruction that pushes. -/
theorem pushStoresAtSpOrOverflows : Obligations.PushStoresAtSpOrOverflows := by
  intro s a
  refine ⟨fun h => ⟨_, push_of_lt s a h, by simp, rfl, fun k hk hne => ?_, push_frame h (push_of_lt s a h)⟩, fun h => ?_⟩
  · exact Vector.getElem_set_ne h hk (Ne.symm hne)
  · have hfull : ¬ s.sp.val < 16 := by omega
    exact ⟨push_of_full s a hfull, fun nnn => ⟨_, exec_call_of_full nnn s hfull, rfl, rfl, rfl⟩⟩

/-- Settles O27: the equation of `00EE` on a stack that is not empty. -/
theorem returnPopsTheTopIntoPc : Obligations.ReturnPopsTheTopIntoPc := by
  intro s h
  have htop : s.sp.val - 1 < 16 := by omega
  exact ⟨_, exec_ret_of_pos s h, Vector.getElem?_eq_getElem htop, rfl, rfl, fun _ => rfl, rfl⟩

/-! ### The writers of VF -/

/-- A call leaves the register file alone, whether it pushes or overflows. -/
theorem exec_call_keeps_v {nnn : Addr12} {s t : State} (h : exec (.call nnn) s = .next t) : t.v = s.v := by
  by_cases hs : s.sp.val < 16
  · rw [exec_call_of_lt nnn s hs] at h; cases h; rfl
  · rw [exec_call_of_full nnn s hs] at h; cases h; rfl

/-- A return leaves the register file alone, whether it pops or underflows. -/
theorem exec_ret_keeps_v {s t : State} (h : exec .ret s = .next t) : t.v = s.v := by
  by_cases hs : 0 < s.sp.val
  · rw [exec_ret_of_pos s hs] at h; cases h; rfl
  · rw [exec_ret_of_empty s hs] at h; cases h; rfl

/-- A register that one write changes is the one written. -/
theorem eq_of_getV_setV_ne {s : State} {x r : Nibble} {b : Byte} (h : (s.setV x b).getV r ≠ s.getV r) : x = r := by
  by_contra hne
  exact h (getV_setV_ne s b (Ne.symm hne))

/-- Loading at most 15 bytes from V[0] up does not reach VF. -/
theorem getV_vf_setRegsFrom (s : State) (bs : List Byte) (h : bs.length ≤ 15) :
    (s.setRegsFrom 0 bs).getV 15 = s.getV 15 := by
  have hout : ¬ (0 ≤ (15 : Nibble).toNat ∧ (15 : Nibble).toNat < 0 + bs.length) := fun ⟨_, hlt⟩ => by
    change 15 < 0 + bs.length at hlt
    omega
  rw [getV_setRegsFrom bs s 0 15 (by omega), dif_neg hout]

/-- `Fx65` changes VF only when x names it. -/
theorem eq_vf_of_ldVxMem {x : Nibble} {s t : State} (h : exec (.ldVxMem x) s = .next t) (hne : t.getV 15 ≠ s.getV 15) :
    x = 15 := by
  cases h
  by_contra hx
  have hx15 : x.toNat ≠ 15 := fun e => hx (BitVec.eq_of_toNat_eq e)
  have hlen : (s.memReadList (s.iAddr 0) (x.toNat + 1)).length ≤ 15 := by
    simp only [State.memReadList, List.length_map, List.length_range]; omega
  exact hne (getV_vf_setRegsFrom s _ hlen)

/-- Settles O59: the flag writers and the draw are listed; an instruction that writes one register, or V[0] to V[x], changes VF only
when that register, or x, is VF; every other instruction leaves the register file alone. -/
theorem vfIsWrittenOnlyByFlagWritersOrByName : Obligations.VfIsWrittenOnlyByFlagWritersOrByName := by
  intro i s t h hne
  cases i
  case addVxVy x y | sub x y | shr x y | subn x y | shl x y => exact .inl ⟨x, y, by simp⟩
  case drw x y n => exact .inr (.inl ⟨x, y, n, rfl⟩)
  case ldVxKk x kk | addVxKk x kk | rnd x kk =>
    cases h
    obtain rfl := eq_of_getV_setV_ne hne
    exact .inr (.inr ⟨kk, 0, by simp⟩)
  case ldVxVy x y | or x y | and x y | xor x y =>
    cases h
    obtain rfl := eq_of_getV_setV_ne hne
    exact .inr (.inr ⟨0, y, by simp⟩)
  case ldVxDt x =>
    cases h
    obtain rfl := eq_of_getV_setV_ne hne
    exact .inr (.inr ⟨0, 0, by simp⟩)
  case ldVxMem x =>
    obtain rfl := eq_vf_of_ldVxMem h hne
    exact .inr (.inr ⟨0, 0, by simp⟩)
  case call nnn => exact absurd (getV_congr (exec_call_keeps_v h) 15) hne
  case ret => exact absurd (getV_congr (exec_ret_keeps_v h) 15) hne
  all_goals
    cases h
    exact absurd (getV_congr (by simp) 15) hne

end Sys2Proof.Machine

/-! PROOFS. Stores read back (20_memory.md R62 to R64), and what the fetch reads (20_memory.md R65, R66, R72). -/

namespace Sys2Proof.Machine

/-! ### Reading after a run of stores -/

/-- A run of stores leaves every cell alone that none of its addresses lies in. -/
theorem memRead_memWriteList_of_ne (bs : List Byte) : ∀ (s : State) (a a' : Nat),
    (∀ k, k < bs.length → a' % Config.memSize ≠ (a + k) % Config.memSize) →
    (s.memWriteList a bs).memRead a' = s.memRead a' := by
  induction bs with
  | nil => intros; rfl
  | cons b bs ih =>
    intro s a a' h
    have hfirst : a' % Config.memSize ≠ a % Config.memSize := h 0 (Nat.zero_lt_succ _)
    have hrest : ∀ k, k < bs.length → a' % Config.memSize ≠ (a + 1 + k) % Config.memSize := fun k hk => by
      rw [Nat.add_assoc, Nat.add_comm 1 k]
      exact h (k + 1) (Nat.succ_lt_succ hk)
    rw [State.memWriteList, ih _ _ _ hrest, memRead_memWrite, if_neg hfirst]

/-- The k-th address of a run of stores no longer than memory reads as the k-th byte: no later store of the run wraps onto it. -/
theorem memRead_memWriteList_add (bs : List Byte) : ∀ (s : State) (a k : Nat) (hk : k < bs.length),
    bs.length ≤ Config.memSize → (s.memWriteList a bs).memRead (a + k) = bs[k] := by
  induction bs with
  | nil => intro s a k hk; exact absurd hk (Nat.not_lt_zero k)
  | cons b bs ih =>
    intro s a k hk hlen
    rw [List.length_cons] at hlen
    cases k with
    | zero =>
      have hlater : ∀ k, k < bs.length → (a + 0) % Config.memSize ≠ (a + 1 + k) % Config.memSize := fun k hk => by
        simp only [Config.memSize] at hlen ⊢
        omega
      rw [State.memWriteList, memRead_memWriteList_of_ne _ _ _ _ hlater, memRead_memWrite]
      exact if_pos rfl
    | succ k =>
      have haddr : a + (k + 1) = a + 1 + k := by omega
      rw [State.memWriteList, haddr]
      exact ih _ _ _ (Nat.lt_of_succ_lt_succ hk) (by omega)

/-! ### The register store -/

@[simp] theorem length_regsUpTo (s : State) (x : Nibble) : (s.regsUpTo x).length = x.toNat + 1 := by
  simp [State.regsUpTo]

/-- The bytes of the register store are the registers, in order. -/
theorem getElem_regsUpTo (s : State) (x r : Nibble) (h : r.toNat < (s.regsUpTo x).length) :
    (s.regsUpTo x)[r.toNat] = s.getV r := by
  simp [State.regsUpTo]

/-- After V[0] to V[x] are stored from I up, the address I + r holds V[r] (42_index_and_memory.md R184). -/
theorem memRead_storeRegs (s : State) {x r : Nibble} (h : r.toNat ≤ x.toNat) :
    (s.memWriteList (s.iAddr 0) (s.regsUpTo x)).memRead (s.i.toNat + r.toNat) = s.getV r := by
  have hx : x.toNat < 16 := x.isLt
  have hk : r.toNat < (s.regsUpTo x).length := by rw [length_regsUpTo]; omega
  have hlen : (s.regsUpTo x).length ≤ Config.memSize := by rw [length_regsUpTo]; simp only [Config.memSize]; omega
  exact (memRead_memWriteList_add _ s (s.iAddr 0) _ hk hlen).trans (getElem_regsUpTo s x r hk)

/-! ### The fetch -/

/-- Settles O8: the fetch joins two wrapped reads, and the first byte is the high one. -/
theorem fetchIsBigEndianAtAnyAddress : Obligations.FetchIsBigEndianAtAnyAddress := by
  intro s
  exact wordOfBytes_toNat (s.memRead s.pc.toNat) (s.memRead (s.pc.toNat + 1))

/-- Settles O9: the store leaves PC at I, where V[0] and V[1] are read back. -/
theorem storeIsSeenByTheNextFetch : Obligations.StoreIsSeenByTheNextFetch := by
  intro s x hx hi
  refine ⟨_, rfl, ?_⟩
  have h0 := memRead_storeRegs s (x := x) (r := 0) (Nat.zero_le _)
  have h1 := memRead_storeRegs s (x := x) (r := 1) hx
  rw [hi] at h0 h1
  rw [State.fetch, memWriteList_pc]
  exact congrArg₂ wordOfBytes h0 h1

end Sys2Proof.Machine

/-! PROOFS. The decoder and the encoder of 30_encoding.md are inverse to each other; decoding is the opcode table of R96, and the
words it leaves are those of R97. -/

namespace Sys2Proof

/-! ### A word is put together from its fields -/

theorem family_append_nnn (op : Word) : (opFamily op ++ opNnn op : Word) = op := by
  apply BitVec.eq_of_getLsbD_eq
  intro k hk
  simp only [opFamily, opNnn, BitVec.getLsbD_append, BitVec.getLsbD_extractLsb']
  interval_cases k <;> simp

theorem family_append_xkk (op : Word) : (opFamily op ++ opX op ++ opKk op : Word) = op := by
  apply BitVec.eq_of_getLsbD_eq
  intro k hk
  simp only [opFamily, opX, opKk, BitVec.getLsbD_append, BitVec.getLsbD_extractLsb']
  interval_cases k <;> simp

theorem family_append_xyn (op : Word) : (opFamily op ++ opX op ++ opY op ++ opN op : Word) = op := by
  apply BitVec.eq_of_getLsbD_eq
  intro k hk
  simp only [opFamily, opX, opY, opN, BitVec.getLsbD_append, BitVec.getLsbD_extractLsb']
  interval_cases k <;> simp

theorem eq_nnn_of_family {op : Word} {f : Nibble} (hf : opFamily op = f) : (f ++ opNnn op : Word) = op :=
  hf ▸ family_append_nnn op

theorem eq_xkk_of_family {op : Word} {f : Nibble} (hf : opFamily op = f) : (f ++ opX op ++ opKk op : Word) = op :=
  hf ▸ family_append_xkk op

theorem eq_xyn_of_family {op : Word} {f : Nibble} (hf : opFamily op = f) : (f ++ opX op ++ opY op ++ opN op : Word) = op :=
  hf ▸ family_append_xyn op

/-- Format XY: the low nibble is the selector. -/
theorem eq_xy_of_selector {op : Word} {f n : Nibble} (hf : opFamily op = f) (hn : opN op = n) :
    (f ++ opX op ++ opY op ++ n : Word) = op :=
  hn ▸ eq_xyn_of_family hf

/-- Format XSS: the low byte is the selector. -/
theorem eq_xss_of_selector {op : Word} {f : Nibble} {kk : Byte} (hf : opFamily op = f) (hkk : opKk op = kk) :
    (f ++ opX op ++ kk : Word) = op :=
  hkk ▸ eq_xkk_of_family hf

/-! ### Decode and encode -/

/-- Decoding reads back the fields that encoding has put together. -/
theorem decodeWord_encode (i : Instr) : decodeWord (encode i) = .ok i := by
  cases i
  case cls | ret => rfl
  case jp nnn | call nnn | ldINnn nnn | jpV0 nnn =>
    simp [encode, decodeWord, opFamily_nnn, opNnn_nnn]
  case seVxKk x kk | sneVxKk x kk | ldVxKk x kk | addVxKk x kk | rnd x kk =>
    simp [encode, decodeWord, opFamily_xkk, opX_xkk, opKk_xkk]
  case seVxVy x y | sneVxVy x y | ldVxVy x y | or x y | and x y | xor x y | addVxVy x y | sub x y | shr x y | subn x y
      | shl x y | drw x y n =>
    simp [encode, decodeWord, opFamily_xyn, opX_xyn, opY_xyn, opN_xyn]
  all_goals simp [encode, decodeWord, opFamily_xkk, opX_xkk, opKk_xkk]

/-- The list of 30_encoding.md R97, in the terms of `Obligations.UnrecognisedWordsAreTheListedOnes`. -/
def Unrecognised (op : Word) : Prop :=
  (opFamily op = 0x0 ∧ op ≠ 0x00E0 ∧ op ≠ 0x00EE) ∨ (opFamily op = 0x5 ∧ opN op ≠ 0) ∨
  (opFamily op = 0x8 ∧ opN op ∈ [0x8#4, 0x9, 0xA, 0xB, 0xC, 0xD, 0xF]) ∨ (opFamily op = 0x9 ∧ opN op ≠ 0) ∨
  (opFamily op = 0xE ∧ opKk op ≠ 0x9E ∧ opKk op ≠ 0xA1) ∨
  (opFamily op = 0xF ∧ opKk op ∉ [0x07#8, 0x0A, 0x15, 0x18, 0x1E, 0x29, 0x33, 0x55, 0x65])

/-- Each disjunct of the list reaches the rejecting branch of its family. -/
theorem decodeWord_of_unrecognised {op : Word} (h : Unrecognised op) : decodeWord op = .error (.unrecognised op) := by
  obtain ⟨hf, hcls, hret⟩ | ⟨hf, hn⟩ | ⟨hf, hn⟩ | ⟨hf, hn⟩ | ⟨hf, hskp, hsknp⟩ | ⟨hf, hkk⟩ := h
  · rw [decodeWord, hf]
    exact (if_neg hcls).trans (if_neg hret)
  · rw [decodeWord, hf]
    exact if_neg hn
  · simp only [List.mem_cons, List.not_mem_nil, or_false] at hn
    obtain hn | hn | hn | hn | hn | hn | hn := hn <;> simp [decodeWord, hf, hn]
  · rw [decodeWord, hf]
    exact if_neg hn
  · simp only [ne_eq, ← BitVec.toNat_inj] at hskp hsknp
    simp only [decodeWord, hf, BitVec.ofNat_eq_ofNat, BitVec.reduceToNat]
    split <;> simp_all
  · simp only [List.mem_cons, List.not_mem_nil, or_false, not_or, ← BitVec.toNat_inj] at hkk
    simp only [decodeWord, hf, BitVec.ofNat_eq_ofNat, BitVec.reduceToNat]
    split <;> simp_all

/-- In family 8 the low nibbles outside the list of R97 are the selectors of R96. -/
theorem exists_encode_of_family8 {op : Word} (hf : opFamily op = 0x8) (hn : opN op ∉ [0x8#4, 0x9, 0xA, 0xB, 0xC, 0xD, 0xF]) :
    ∃ i, encode i = op := by
  have hsel : ∀ n : Nibble, n ∉ [0x8#4, 0x9, 0xA, 0xB, 0xC, 0xD, 0xF] →
      n = 0x0 ∨ n = 0x1 ∨ n = 0x2 ∨ n = 0x3 ∨ n = 0x4 ∨ n = 0x5 ∨ n = 0x6 ∨ n = 0x7 ∨ n = 0xE := by
    decide
  obtain hn | hn | hn | hn | hn | hn | hn | hn | hn := hsel _ hn
  · exact ⟨.ldVxVy _ _, eq_xy_of_selector hf hn⟩
  · exact ⟨.or _ _, eq_xy_of_selector hf hn⟩
  · exact ⟨.and _ _, eq_xy_of_selector hf hn⟩
  · exact ⟨.xor _ _, eq_xy_of_selector hf hn⟩
  · exact ⟨.addVxVy _ _, eq_xy_of_selector hf hn⟩
  · exact ⟨.sub _ _, eq_xy_of_selector hf hn⟩
  · exact ⟨.shr _ _, eq_xy_of_selector hf hn⟩
  · exact ⟨.subn _ _, eq_xy_of_selector hf hn⟩
  · exact ⟨.shl _ _, eq_xy_of_selector hf hn⟩

theorem exists_encode_of_familyF {op : Word} (hf : opFamily op = 0xF)
    (hkk : opKk op ∈ [0x07#8, 0x0A, 0x15, 0x18, 0x1E, 0x29, 0x33, 0x55, 0x65]) : ∃ i, encode i = op := by
  simp only [List.mem_cons, List.not_mem_nil, or_false] at hkk
  obtain hkk | hkk | hkk | hkk | hkk | hkk | hkk | hkk | hkk := hkk
  · exact ⟨.ldVxDt _, eq_xss_of_selector hf hkk⟩
  · exact ⟨.ldVxK _, eq_xss_of_selector hf hkk⟩
  · exact ⟨.ldDtVx _, eq_xss_of_selector hf hkk⟩
  · exact ⟨.ldStVx _, eq_xss_of_selector hf hkk⟩
  · exact ⟨.addIVx _, eq_xss_of_selector hf hkk⟩
  · exact ⟨.ldFVx _, eq_xss_of_selector hf hkk⟩
  · exact ⟨.ldBVx _, eq_xss_of_selector hf hkk⟩
  · exact ⟨.ldMemVx _, eq_xss_of_selector hf hkk⟩
  · exact ⟨.ldVxMem _, eq_xss_of_selector hf hkk⟩

theorem nibble_cases (n : Nibble) :
    n = 0x0 ∨ n = 0x1 ∨ n = 0x2 ∨ n = 0x3 ∨ n = 0x4 ∨ n = 0x5 ∨ n = 0x6 ∨ n = 0x7 ∨
    n = 0x8 ∨ n = 0x9 ∨ n = 0xA ∨ n = 0xB ∨ n = 0xC ∨ n = 0xD ∨ n = 0xE ∨ n = 0xF := by
  revert n
  decide

/-- Every word outside the list of R97 is the encoding of an instruction: one case per family. -/
theorem exists_encode_of_not_unrecognised {op : Word} (h : ¬ Unrecognised op) : ∃ i, encode i = op := by
  obtain hf | hf | hf | hf | hf | hf | hf | hf | hf | hf | hf | hf | hf | hf | hf | hf :=
    nibble_cases (opFamily op)
  · by_cases hcls : op = 0x00E0
    · exact ⟨.cls, hcls.symm⟩
    · exact ⟨.ret, by_contra fun hret => h (.inl ⟨hf, hcls, Ne.symm hret⟩)⟩
  · exact ⟨.jp _, eq_nnn_of_family hf⟩
  · exact ⟨.call _, eq_nnn_of_family hf⟩
  · exact ⟨.seVxKk _ _, eq_xkk_of_family hf⟩
  · exact ⟨.sneVxKk _ _, eq_xkk_of_family hf⟩
  · exact ⟨.seVxVy _ _, eq_xy_of_selector hf (by_contra fun hn => h (.inr (.inl ⟨hf, hn⟩)))⟩
  · exact ⟨.ldVxKk _ _, eq_xkk_of_family hf⟩
  · exact ⟨.addVxKk _ _, eq_xkk_of_family hf⟩
  · exact exists_encode_of_family8 hf fun hn => h (.inr (.inr (.inl ⟨hf, hn⟩)))
  · exact ⟨.sneVxVy _ _, eq_xy_of_selector hf (by_contra fun hn => h (.inr (.inr (.inr (.inl ⟨hf, hn⟩)))))⟩
  · exact ⟨.ldINnn _, eq_nnn_of_family hf⟩
  · exact ⟨.jpV0 _, eq_nnn_of_family hf⟩
  · exact ⟨.rnd _ _, eq_xkk_of_family hf⟩
  · exact ⟨.drw _ _ _, eq_xyn_of_family hf⟩
  · by_cases hskp : opKk op = 0x9E
    · exact ⟨.skp _, eq_xss_of_selector hf hskp⟩
    · exact ⟨.sknp _, eq_xss_of_selector hf
        (by_contra fun hsknp => h (.inr (.inr (.inr (.inr (.inl ⟨hf, hskp, hsknp⟩))))))⟩
  · exact exists_encode_of_familyF hf
      (by_contra fun hkk => h (.inr (.inr (.inr (.inr (.inr ⟨hf, hkk⟩))))))

theorem encode_of_decodeWord {op : Word} {i : Instr} (h : decodeWord op = .ok i) : encode i = op := by
  have hlist : ¬ Unrecognised op := fun hu => by simp [decodeWord_of_unrecognised hu] at h
  obtain ⟨j, rfl⟩ := exists_encode_of_not_unrecognised hlist
  rw [decodeWord_encode] at h
  cases h
  rfl

theorem decodeWord_eq_ok_iff {op : Word} {i : Instr} : decodeWord op = .ok i ↔ encode i = op :=
  ⟨encode_of_decodeWord, fun h => h ▸ decodeWord_encode i⟩

theorem decodeBytes_cons_cons_eq_ok_iff {hi lo : Byte} {rest rest' : List Byte} {i : Instr} :
    decodeBytes (hi :: lo :: rest) = .ok (i, rest') ↔ encode i = wordOfBytes hi lo ∧ rest' = rest := by
  rw [← decodeWord_eq_ok_iff, decodeBytes]
  cases decodeWord (wordOfBytes hi lo) <;> simp [eq_comm]

/-- Settles O2: the two bytes of a word join to it, and the decoder reads back what the encoder has put together. -/
theorem decodeOfEncodeIsTheInstruction : Obligations.DecodeOfEncodeIsTheInstruction := by
  intro i rest
  exact decodeBytes_cons_cons_eq_ok_iff.mpr ⟨(wordOfBytes_split (encode i)).symm, rfl⟩

/-- Settles O3: a word that decodes to an instruction is its encoding, and has the two bytes it was joined from. -/
theorem encodeOfDecodeIsTheWord : Obligations.EncodeOfDecodeIsTheWord := by
  intro hi lo rest rest' i h
  obtain ⟨hword, hrest⟩ := decodeBytes_cons_cons_eq_ok_iff.mp h
  exact ⟨by rw [encodeBytes, hword, wordHi_wordOfBytes, wordLo_wordOfBytes], hrest⟩

/-! ### The opcode table -/

theorem family_of_maskFamily {op : Word} {f : Nibble} (h : op &&& 0xF000 = f ++ 0#12) : opFamily op = f := by
  rw [← family_append_nnn op, Laws.TableRow.maskFamily_nnn] at h
  simpa only [opFamily_nnn] using congrArg opFamily h

theorem eq_nnn_of_maskFamily {op : Word} {f : Nibble} (h : op &&& 0xF000 = f ++ 0#12) : (f ++ opNnn op : Word) = op :=
  eq_nnn_of_family (family_of_maskFamily h)

theorem eq_xkk_of_maskFamily {op : Word} {f : Nibble} (h : op &&& 0xF000 = f ++ 0#12) : (f ++ opX op ++ opKk op : Word) = op :=
  eq_xkk_of_family (family_of_maskFamily h)

theorem eq_xyn_of_maskFamily {op : Word} {f : Nibble} (h : op &&& 0xF000 = f ++ 0#12) :
    (f ++ opX op ++ opY op ++ opN op : Word) = op :=
  eq_xyn_of_family (family_of_maskFamily h)

theorem opFamily_ends (f n : Nibble) : opFamily (f ++ 0#8 ++ n) = f := by
  apply BitVec.eq_of_getLsbD_eq
  intro k hk
  simp only [opFamily, BitVec.getLsbD_extractLsb', BitVec.getLsbD_append]
  interval_cases k <;> simp

theorem opN_ends (f n : Nibble) : opN (f ++ 0#8 ++ n) = n := by
  apply BitVec.eq_of_getLsbD_eq
  intro k hk
  simp only [opN, BitVec.getLsbD_extractLsb', BitVec.getLsbD_append]
  interval_cases k <;> simp

theorem eq_xy_of_maskEnds {op : Word} {f n : Nibble} (h : op &&& 0xF00F = f ++ 0#8 ++ n) :
    (f ++ opX op ++ opY op ++ n : Word) = op := by
  rw [← family_append_xyn op, Laws.TableRow.maskEnds_xyn] at h
  have hf : opFamily op = f := by simpa only [opFamily_ends] using congrArg opFamily h
  have hn : opN op = n := by simpa only [opN_ends] using congrArg opN h
  exact eq_xy_of_selector hf hn

theorem eq_xss_of_maskSelector {op : Word} {f : Nibble} {kk : Byte} (h : op &&& 0xF0FF = f ++ 0#4 ++ kk) :
    (f ++ opX op ++ kk : Word) = op := by
  rw [← family_append_xkk op, Laws.TableRow.maskSelector_xkk] at h
  have hf : opFamily op = f := by simpa only [opFamily_xkk] using congrArg opFamily h
  have hkk : opKk op = kk := by simpa only [opKk_xkk] using congrArg opKk h
  exact eq_xss_of_selector hf hkk

/-- A word that matches a row is the encoding of an instruction of that row, with the fields the mask leaves free. -/
theorem exists_encode_of_matches (op : Word) :
    ∀ row ∈ opcodeTable, op &&& row.mask = row.pattern → ∃ i, encode i = op ∧ i.mnemonic = row.mnemonic := by
  simp only [opcodeTable, List.cons_append, List.nil_append, List.forall_mem_cons]
  exact ⟨
    fun h => ⟨.cls, h.symm.trans BitVec.and_allOnes, rfl⟩,
    fun h => ⟨.ret, h.symm.trans BitVec.and_allOnes, rfl⟩,
    fun h => ⟨.jp _, eq_nnn_of_maskFamily h, rfl⟩,
    fun h => ⟨.call _, eq_nnn_of_maskFamily h, rfl⟩,
    fun h => ⟨.seVxKk _ _, eq_xkk_of_maskFamily h, rfl⟩,
    fun h => ⟨.sneVxKk _ _, eq_xkk_of_maskFamily h, rfl⟩,
    fun h => ⟨.seVxVy _ _, eq_xy_of_maskEnds h, rfl⟩,
    fun h => ⟨.ldVxKk _ _, eq_xkk_of_maskFamily h, rfl⟩,
    fun h => ⟨.addVxKk _ _, eq_xkk_of_maskFamily h, rfl⟩,
    fun h => ⟨.ldVxVy _ _, eq_xy_of_maskEnds h, rfl⟩,
    fun h => ⟨.or _ _, eq_xy_of_maskEnds h, rfl⟩,
    fun h => ⟨.and _ _, eq_xy_of_maskEnds h, rfl⟩,
    fun h => ⟨.xor _ _, eq_xy_of_maskEnds h, rfl⟩,
    fun h => ⟨.addVxVy _ _, eq_xy_of_maskEnds h, rfl⟩,
    fun h => ⟨.sub _ _, eq_xy_of_maskEnds h, rfl⟩,
    fun h => ⟨.shr _ _, eq_xy_of_maskEnds h, rfl⟩,
    fun h => ⟨.subn _ _, eq_xy_of_maskEnds h, rfl⟩,
    fun h => ⟨.shl _ _, eq_xy_of_maskEnds h, rfl⟩,
    fun h => ⟨.sneVxVy _ _, eq_xy_of_maskEnds h, rfl⟩,
    fun h => ⟨.ldINnn _, eq_nnn_of_maskFamily h, rfl⟩,
    fun h => ⟨.jpV0 _, eq_nnn_of_maskFamily h, rfl⟩,
    fun h => ⟨.rnd _ _, eq_xkk_of_maskFamily h, rfl⟩,
    fun h => ⟨.drw _ _ _, eq_xyn_of_maskFamily h, rfl⟩,
    fun h => ⟨.skp _, eq_xss_of_maskSelector h, rfl⟩,
    fun h => ⟨.sknp _, eq_xss_of_maskSelector h, rfl⟩,
    fun h => ⟨.ldVxDt _, eq_xss_of_maskSelector h, rfl⟩,
    fun h => ⟨.ldVxK _, eq_xss_of_maskSelector h, rfl⟩,
    fun h => ⟨.ldDtVx _, eq_xss_of_maskSelector h, rfl⟩,
    fun h => ⟨.ldStVx _, eq_xss_of_maskSelector h, rfl⟩,
    fun h => ⟨.addIVx _, eq_xss_of_maskSelector h, rfl⟩,
    fun h => ⟨.ldFVx _, eq_xss_of_maskSelector h, rfl⟩,
    fun h => ⟨.ldBVx _, eq_xss_of_maskSelector h, rfl⟩,
    fun h => ⟨.ldMemVx _, eq_xss_of_maskSelector h, rfl⟩,
    fun h => ⟨.ldVxMem _, eq_xss_of_maskSelector h, rfl⟩,
    List.forall_mem_nil _⟩

theorem nodup_mnemonics : (opcodeTable.map OpcodeRow.mnemonic).Nodup := by decide

theorem row_eq_of_mnemonic_eq {row row' : OpcodeRow} (h : row ∈ opcodeTable) (h' : row' ∈ opcodeTable)
    (hm : row.mnemonic = row'.mnemonic) : row = row' :=
  List.inj_on_of_nodup_map nodup_mnemonics h h' hm

/-- The family TableRow, for every instruction at once. -/
theorem encode_matches_its_row : ∀ i : Instr, Laws.TableRow.Statement i
  | .cls => Laws.TableRow.cls
  | .ret => Laws.TableRow.ret
  | .jp nnn => Laws.TableRow.jp nnn
  | .call nnn => Laws.TableRow.call nnn
  | .seVxKk x kk => Laws.TableRow.seVxKk x kk
  | .sneVxKk x kk => Laws.TableRow.sneVxKk x kk
  | .seVxVy x y => Laws.TableRow.seVxVy x y
  | .ldVxKk x kk => Laws.TableRow.ldVxKk x kk
  | .addVxKk x kk => Laws.TableRow.addVxKk x kk
  | .ldVxVy x y => Laws.TableRow.ldVxVy x y
  | .or x y => Laws.TableRow.or x y
  | .and x y => Laws.TableRow.and x y
  | .xor x y => Laws.TableRow.xor x y
  | .addVxVy x y => Laws.TableRow.addVxVy x y
  | .sub x y => Laws.TableRow.sub x y
  | .shr x y => Laws.TableRow.shr x y
  | .subn x y => Laws.TableRow.subn x y
  | .shl x y => Laws.TableRow.shl x y
  | .sneVxVy x y => Laws.TableRow.sneVxVy x y
  | .ldINnn nnn => Laws.TableRow.ldINnn nnn
  | .jpV0 nnn => Laws.TableRow.jpV0 nnn
  | .rnd x kk => Laws.TableRow.rnd x kk
  | .drw x y n => Laws.TableRow.drw x y n
  | .skp x => Laws.TableRow.skp x
  | .sknp x => Laws.TableRow.sknp x
  | .ldVxDt x => Laws.TableRow.ldVxDt x
  | .ldVxK x => Laws.TableRow.ldVxK x
  | .ldDtVx x => Laws.TableRow.ldDtVx x
  | .ldStVx x => Laws.TableRow.ldStVx x
  | .addIVx x => Laws.TableRow.addIVx x
  | .ldFVx x => Laws.TableRow.ldFVx x
  | .ldBVx x => Laws.TableRow.ldBVx x
  | .ldMemVx x => Laws.TableRow.ldMemVx x
  | .ldVxMem x => Laws.TableRow.ldVxMem x

theorem matches_row_iff {op : Word} {row : OpcodeRow} (hrow : row ∈ opcodeTable) :
    (∃ i, decodeWord op = .ok i ∧ i.mnemonic = row.mnemonic) ↔ op &&& row.mask = row.pattern := by
  simp only [decodeWord_eq_ok_iff]
  refine ⟨?_, exists_encode_of_matches op row hrow⟩
  rintro ⟨i, rfl, hi⟩
  obtain ⟨row', hrow', hi', hmatch⟩ := encode_matches_its_row i
  obtain rfl := row_eq_of_mnemonic_eq hrow' hrow (hi'.trans hi)
  exact hmatch

/-- Settles O4: a word has at most one decoding, whose mnemonic names at most one row. -/
theorem decodingIsExactMatchOfOneTableRow : Obligations.DecodingIsExactMatchOfOneTableRow := by
  intro op
  refine ⟨fun row hrow => matches_row_iff hrow, fun row hrow row' hrow' hmatch hmatch' => ?_⟩
  obtain ⟨i, hi, hm⟩ := (matches_row_iff hrow).mpr hmatch
  obtain ⟨i', hi', hm'⟩ := (matches_row_iff hrow').mpr hmatch'
  obtain rfl : i = i' := Except.ok.inj (hi.symm.trans hi')
  exact row_eq_of_mnemonic_eq hrow hrow' (hm.symm.trans hm')

/-! ### The unrecognised words -/

/-- The decoder rejects the words of R97, each as itself, and no other. -/
theorem decodeWord_eq_error_iff {op : Word} {r : Reject} :
    decodeWord op = .error r ↔ Unrecognised op ∧ r = .unrecognised op := by
  constructor
  · intro h
    have hu : Unrecognised op := by_contra fun hu => by
      obtain ⟨i, rfl⟩ := exists_encode_of_not_unrecognised hu
      simp [decodeWord_encode] at h
    rw [decodeWord_of_unrecognised hu] at h
    exact ⟨hu, (Except.error.inj h).symm⟩
  · rintro ⟨hu, rfl⟩
    exact decodeWord_of_unrecognised hu

/-- Settles O5: the decoder rejects the listed words, and every other word is the encoding of an instruction. -/
theorem unrecognisedWordsAreTheListedOnes : Obligations.UnrecognisedWordsAreTheListedOnes := by
  intro op
  exact ⟨decodeWord_eq_error_iff.trans (and_iff_left rfl), fun r h => (decodeWord_eq_error_iff.mp h).2⟩

end Sys2Proof

/-! PROOFS. The jumps and the register skips of 40_cycle_and_control_flow.md (R123, R126 to R130): each is one write of PC. -/

namespace Sys2Proof.Machine

/-! ### The jumps -/

theorem noFlagNoFault_setPc (s : State) (w : Word) : NoFlagNoFault s (s.setPc w) := ⟨getV_setPc s w, setPc_fault s w⟩

theorem toNat_addr12_toWord (nnn : Addr12) : nnn.toWord.toNat = nnn.toNat :=
  BitVec.toNat_setWidth_of_le (by decide)

/-- The target of `Bnnn` is an exact sum: 4095 + 255 stays below 65536, so nothing wraps (R130). -/
theorem toNat_addr12_toWord_add (nnn : Addr12) (b : Byte) : (nnn.toWord + b.toWord).toNat = nnn.toNat + b.toNat := by
  have hb : b.toWord.toNat = b.toNat := BitVec.toNat_setWidth_of_le (by decide)
  have hlt : nnn.toNat + b.toNat < 2 ^ 16 := by omega
  rw [BitVec.toNat_add, toNat_addr12_toWord, hb, Nat.mod_eq_of_lt hlt]

/-- Settles O24: both jumps write PC alone, and neither target leaves 16 bits. -/
theorem jumpsSetPc : Obligations.JumpsSetPc := fun s nnn =>
  ⟨⟨s.setPc nnn.toWord, rfl, toNat_addr12_toWord nnn, noFlagNoFault_setPc s _⟩,
    ⟨s.setPc (nnn.toWord + (s.getV 0).toWord), rfl, toNat_addr12_toWord_add nnn (s.getV 0), noFlagNoFault_setPc s _⟩⟩

/-! ### The skips -/

theorem noFlagNoFault_skipIf (s : State) (c : Bool) : NoFlagNoFault s (s.skipIf c) := ⟨getV_skipIf s c, skipIf_fault s c⟩

/-- An instruction whose meaning is a skip on `p` skips when `p` holds, stays when it fails, and does nothing else that a flag or an
exception would show (R125). -/
theorem skip_of_exec_eq {i : Instr} {s : State} {p : Prop} [Decidable p] (h : exec i s = .next (s.skipIf (decide p))) :
    ∃ t, exec i s = .next t ∧ (p → t.pc = s.pc + 2) ∧ (¬ p → t.pc = s.pc) ∧ NoFlagNoFault s t :=
  ⟨_, h, fun hp => by simp [hp], fun hp => by simp [hp], noFlagNoFault_skipIf s _⟩

/-- The same for an instruction that skips when `p` fails. -/
theorem skip_of_exec_eq_not {i : Instr} {s : State} {p : Prop} [Decidable p] (h : exec i s = .next (s.skipIf (decide (¬ p)))) :
    ∃ t, exec i s = .next t ∧ (¬ p → t.pc = s.pc + 2) ∧ (p → t.pc = s.pc) ∧ NoFlagNoFault s t := by
  simpa only [not_not] using skip_of_exec_eq h

/-- Settles O30: `3xkk` skips on the equality, `4xkk` on its negation. -/
theorem immediateSkips : Obligations.ImmediateSkips := fun s x kk =>
  ⟨skip_of_exec_eq (i := .seVxKk x kk) (p := s.getV x = kk) rfl,
    skip_of_exec_eq_not (i := .sneVxKk x kk) (p := s.getV x = kk) rfl⟩

/-- Settles O31: `5xy0` skips on the equality, `9xy0` on its negation. -/
theorem registerSkips : Obligations.RegisterSkips := fun s x y =>
  ⟨skip_of_exec_eq (i := .seVxVy x y) (p := s.getV x = s.getV y) rfl,
    skip_of_exec_eq_not (i := .sneVxVy x y) (p := s.getV x = s.getV y) rfl⟩

end Sys2Proof.Machine

/-! PROOFS. The loads, the immediate add, the move and the logic of 41_load_and_alu.md (R151 to R156): each is one write of V[x]. -/

namespace Sys2Proof.Machine

/-- A register write leaves every other register, VF included, and the fault latch. -/
theorem setV_keeps_others (s : State) (x : Nibble) (b : Byte) :
    (∀ r, r ≠ x → (s.setV x b).getV r = s.getV r) ∧ (s.setV x b).fault = s.fault :=
  ⟨fun _ hr => getV_setV_ne s b hr, setV_fault s x b⟩

@[simp] theorem toNat_addResult (a b : Byte) : (addResult a b).toNat = (a.toNat + b.toNat) % 256 :=
  BitVec.toNat_ofNat (a.toNat + b.toNat) 8

/-- Settles O33: both write V[x] alone, `6xkk` the immediate and `7xkk` the truncated sum. -/
theorem immediateLoadAndAdd : Obligations.ImmediateLoadAndAdd := by
  intro s x kk
  refine ⟨⟨s.setV x kk, rfl, ?load, setV_keeps_others s x _⟩,
    ⟨s.setV x (addResult (s.getV x) kk), rfl, ?add, setV_keeps_others s x _⟩⟩
  case load => exact getV_setV_same s x kk
  case add => rw [getV_setV_same, toNat_addResult]

/-- Settles O34: all four write V[x] alone, and the three logic operations act on each bit. -/
theorem moveAndLogic : Obligations.MoveAndLogic := by
  intro s x y
  refine ⟨⟨s.setV x (s.getV y), rfl, ?move, setV_keeps_others s x _⟩,
    ⟨s.setV x (s.getV x ||| s.getV y), rfl, fun k => ?or, setV_keeps_others s x _⟩,
    ⟨s.setV x (s.getV x &&& s.getV y), rfl, fun k => ?and, setV_keeps_others s x _⟩,
    ⟨s.setV x (s.getV x ^^^ s.getV y), rfl, fun k => ?xor, setV_keeps_others s x _⟩⟩
  case move => exact getV_setV_same s x (s.getV y)
  case or => rw [getV_setV_same, BitVec.getLsbD_or]
  case and => rw [getV_setV_same, BitVec.getLsbD_and]
  case xor => rw [getV_setV_same, BitVec.getLsbD_xor]

end Sys2Proof.Machine

/-! PROOFS. The writes of I and the memory transfers of 42_index_and_memory.md (R180 to R185). -/

namespace Sys2Proof.Machine

/-! ### The writes of I -/

theorem noFlagNoFault_setI (s : State) (w : Word) : NoFlagNoFault s (s.setI w) := ⟨getV_setI s w, setI_fault s w⟩

theorem toNat_byte_toWord (b : Byte) : b.toWord.toNat = b.toNat :=
  BitVec.toNat_setWidth_of_le (by decide)

/-- The whole byte counts: 255 * 5 stays below 65536, so nothing wraps (R182). -/
theorem toNat_glyphAddr (b : Byte) : (glyphAddr b).toNat = b.toNat * 5 := by
  have hlt : b.toNat * 5 < 2 ^ 16 := by omega
  rw [glyphAddr, BitVec.toNat_ofNat, Nat.mod_eq_of_lt hlt]

/-- Settles O38: each of the three writes I alone; only the sum can wrap, and it wraps at 16 bits. -/
theorem indexRegisterWrites : Obligations.IndexRegisterWrites := by
  intro s x nnn
  refine ⟨⟨s.setI nnn.toWord, rfl, ?load, noFlagNoFault_setI s _⟩,
    ⟨s.setI (s.i + (s.getV x).toWord), rfl, ?add, noFlagNoFault_setI s _⟩,
    ⟨s.setI (glyphAddr (s.getV x)), rfl, ?glyph, noFlagNoFault_setI s _⟩⟩
  case load => exact toNat_addr12_toWord nnn
  case add => rw [setI_i, BitVec.toNat_add, toNat_byte_toWord]
  case glyph => exact toNat_glyphAddr (s.getV x)

/-! ### The stores -/

theorem noFlagNoFault_memWriteList (s : State) (a : Nat) (bs : List Byte) : NoFlagNoFault s (s.memWriteList a bs) :=
  ⟨getV_memWriteList s a bs, memWriteList_fault s a bs⟩

/-- A store from I up leaves a cell alone that none of its wrapped addresses names (R186). -/
theorem memRead_storeFromI_of_ne (s : State) (bs : List Byte) {a : Nat} (ha : a < Config.memSize)
    (hne : ∀ k, k < bs.length → a ≠ s.iCell k) : (s.memWriteList (s.iAddr 0) bs).memRead a = s.memRead a :=
  memRead_memWriteList_of_ne bs s (s.iAddr 0) a fun k hk => (Nat.mod_eq_of_lt ha).symm ▸ hne k hk

@[simp] theorem length_bcdDigits (b : Byte) : (bcdDigits b).length = 3 := rfl

/-- After `Fx33` the address I + k holds the k-th digit, as the number it is: a digit fits a byte (R183). -/
theorem toNat_memRead_storeBcd (s : State) (b : Byte) {k d : Nat} (hk : (bcdDigits b)[k]? = some (BitVec.ofNat 8 d))
    (hd : d < 2 ^ 8) : ((s.memWriteList (s.iAddr 0) (bcdDigits b)).memRead (s.i.toNat + k)).toNat = d := by
  obtain ⟨hlt, hdigit⟩ := List.getElem?_eq_some_iff.mp hk
  have hlen : (bcdDigits b).length ≤ Config.memSize := by rw [length_bcdDigits]; decide
  have hread := memRead_memWriteList_add (bcdDigits b) s (s.iAddr 0) k hlt hlen
  exact (congrArg BitVec.toNat (hread.trans hdigit)).trans (Nat.mod_eq_of_lt hd)

/-- Settles O39: each digit is read back from its address. -/
theorem bcdStoresThreeDigits : Obligations.BcdStoresThreeDigits := by
  intro s x
  refine ⟨s.memWriteList (s.iAddr 0) (bcdDigits (s.getV x)), rfl, ?hundreds, ?tens, ?ones,
    fun a ha hne => memRead_storeFromI_of_ne s _ ha hne, memWriteList_i s _ _, noFlagNoFault_memWriteList s _ _⟩
  case hundreds => exact toNat_memRead_storeBcd s _ (k := 0) rfl (by omega)
  case tens => exact toNat_memRead_storeBcd s _ (k := 1) rfl (by omega)
  case ones => exact toNat_memRead_storeBcd s _ (k := 2) rfl (by omega)

/-- Settles O40: each register is read back from its address, and the run has x + 1 bytes. -/
theorem registersAreStoredFromI : Obligations.RegistersAreStoredFromI := by
  intro s x
  refine ⟨s.memWriteList (s.iAddr 0) (s.regsUpTo x), rfl, fun r hr => memRead_storeRegs s hr, fun a ha hne => ?others,
    memWriteList_i s _ _, noFlagNoFault_memWriteList s _ _⟩
  case others =>
    refine memRead_storeFromI_of_ne s _ ha fun k hk => hne k ?_
    rw [length_regsUpTo] at hk
    exact Nat.le_of_lt_succ hk

/-! ### The register load -/

@[simp] theorem length_memReadList (s : State) (a n : Nat) : (s.memReadList a n).length = n := by
  simp [State.memReadList]

theorem getElem_memReadList (s : State) (a n k : Nat) (h : k < (s.memReadList a n).length) :
    (s.memReadList a n)[k] = s.memRead (a + k) := by
  simp [State.memReadList]

/-- Loading n bytes of memory into V[0] up: V[r] with r below n holds the byte at offset r, the others stay. -/
theorem getV_loadRegs (s : State) (a n : Nat) (hn : n ≤ 16) (r : Nibble) :
    (s.setRegsFrom 0 (s.memReadList a n)).getV r = if r.toNat < n then s.memRead (a + r.toNat) else s.getV r := by
  rw [getV_setRegsFrom _ s 0 r (by simpa using hn)]
  simp [getElem_memReadList]

/-- Settles O41: the load is x + 1 bytes long, at most the 16 registers there are. -/
theorem registersAreLoadedFromI : Obligations.RegistersAreLoadedFromI := by
  intro s x
  have hload := getV_loadRegs s (s.iAddr 0) (x.toNat + 1) x.isLt
  refine ⟨s.setRegsFrom 0 (s.memReadList (s.iAddr 0) (x.toNat + 1)), rfl, fun r hr => ?loaded, fun r hr => ?above,
    memRead_setRegsFrom s 0 _, setRegsFrom_i s 0 _, setRegsFrom_fault s 0 _⟩
  case loaded => exact (hload r).trans (if_pos (Nat.lt_succ_of_le hr))
  case above => exact (hload r).trans (if_neg (Nat.not_lt.mpr hr))

end Sys2Proof.Machine

/-! PROOFS. The clear and the sprite draw of 43_display.md (R200 to R203): a drawn sprite as the set of pixels it covers. -/

namespace Sys2Proof.Machine

/-! ### The clear -/

/-- A write of FB is a write of nothing else. -/
theorem setFb_frame (s : State) (fb : Display) : UnchangedExcept [.display] s { s with fb := fb } := by
  constructor
  case display => exact fun h => absurd (List.mem_singleton_self _) h
  case stack => exact fun _ => ⟨rfl, rfl⟩
  all_goals intros; rfl

/-- Settles O42: the clear is one write of FB. -/
theorem clearTurnsEveryPixelOff : Obligations.ClearTurnsEveryPixelOff := fun s =>
  ⟨{ s with fb := Display.clear }, rfl, pixel_clear, setFb_frame s Display.clear⟩

/-! ### The pixels a sprite covers -/

@[simp] theorem not_spriteCovers_nil (px py x y : Nat) : ¬ SpriteCovers px py [] x y := by
  rintro ⟨r, c, -, ⟨row, hrow, -⟩, -⟩
  exact nomatch hrow

/-- A sprite covers what its first row covers and what the rows below it cover, which start one pixel further down. -/
theorem spriteCovers_cons {px py : Nat} {row : Byte} {rest : List Byte} {x y : Nat} :
    SpriteCovers px py (row :: rest) x y ↔ SpriteCovers px py [row] x y ∨ SpriteCovers px (py + 1) rest x y := by
  constructor
  · rintro ⟨r, c, hc, hbit, hx, hy⟩
    cases r with
    | zero => exact .inl ⟨0, c, hc, hbit, hx, hy⟩
    | succ r => exact .inr ⟨r, c, hc, hbit, hx, by rw [hy]; congr 1; omega⟩
  · rintro (⟨r, c, hc, hbit, hx, hy⟩ | ⟨r, c, hc, hbit, hx, hy⟩)
    · cases r with
      | zero => exact ⟨0, c, hc, hbit, hx, hy⟩
      | succ r => exact nomatch hbit
    · exact ⟨r + 1, c, hc, hbit, hx, by rw [hy]; congr 1; omega⟩

/-- One row covers the pixels of its 1 bits. -/
theorem spriteCovers_row {px py : Nat} {row : Byte} {x y : Nat} :
    SpriteCovers px py [row] x y ↔
      ∃ c < 8, row.getLsbD (7 - c) = true ∧ x = (px + c) % 64 ∧ y = py % 32 := by
  constructor
  · rintro ⟨r, c, hc, ⟨row', hrow, hbit⟩, hx, hy⟩
    cases r with
    | zero =>
      cases hrow
      exact ⟨c, hc, hbit, hx, hy⟩
    | succ r => exact nomatch hrow
  · rintro ⟨c, hc, hbit, hx, hy⟩
    exact ⟨0, c, hc, ⟨row, rfl, hbit⟩, hx, hy⟩

/-- The rows below do not wrap back onto the first one: a sprite is no taller than the grid (43_display.md R204 (a)). -/
theorem not_spriteCovers_rest {px py : Nat} {row : Byte} {rest : List Byte} {x y : Nat} (hlen : rest.length < 32)
    (h : SpriteCovers px py [row] x y) : ¬ SpriteCovers px (py + 1) rest x y := by
  rintro ⟨r, c', -, ⟨row', hrow, -⟩, -, hy'⟩
  obtain ⟨c, -, -, -, hy⟩ := spriteCovers_row.mp h
  obtain ⟨hr, -⟩ := List.getElem?_eq_some_iff.mp hrow
  simp only [Config.dispH] at hy'
  omega

/-- On the grid, `SpriteCovers` of one row is the test that `pixel_plotRow` is stated with. -/
theorem any_bitCovers_iff {px py : Nat} {row : Byte} {x y : Nat} (hx : x < 64) (hy : y < 32) :
    ((List.range 8).any fun c => bitCovers px py row c x y) = true ↔ SpriteCovers px py [row] x y := by
  simp only [List.any_eq_true, List.mem_range, bitCovers, Bool.and_eq_true, decide_eq_true_eq, Nat.mod_eq_of_lt hx,
    Nat.mod_eq_of_lt hy, spriteCovers_row]

/-! ### One row -/

theorem pixel_plotRow_of_covers {px py : Nat} {row : Byte} (acc : Display × Bool) {x y : Nat} (hx : x < 64) (hy : y < 32)
    (h : SpriteCovers px py [row] x y) : Display.pixel (plotRow px py row acc).1 x y = !Display.pixel acc.1 x y := by
  rw [pixel_plotRow, (any_bitCovers_iff hx hy).mpr h, Bool.xor_true]

theorem pixel_plotRow_of_not_covers {px py : Nat} {row : Byte} (acc : Display × Bool) {x y : Nat} (hx : x < 64) (hy : y < 32)
    (h : ¬ SpriteCovers px py [row] x y) : Display.pixel (plotRow px py row acc).1 x y = Display.pixel acc.1 x y := by
  rw [pixel_plotRow, Bool.eq_false_iff.mpr (mt (any_bitCovers_iff hx hy).mp h), Bool.xor_false]

/-- A sprite of these rows at (px, py) covers a pixel of the grid that is lit (43_display.md R202). -/
def CoversLit (fb : Display) (px py : Nat) (rows : List Byte) : Prop :=
  ∃ x y, x < 64 ∧ y < 32 ∧ SpriteCovers px py rows x y ∧ Display.pixel fb x y = true

theorem collision_plotRow_iff (px py : Nat) (row : Byte) (acc : Display × Bool) :
    (plotRow px py row acc).2 = true ↔ acc.2 = true ∨ CoversLit acc.1 px py [row] := by
  simp only [collision_plotRow, Bool.or_eq_true, List.any_eq_true, List.mem_range, Bool.and_eq_true, CoversLit, spriteCovers_row]
  refine or_congr_right ⟨?_, ?_⟩
  · rintro ⟨c, hc, hbit, hlit⟩
    exact ⟨(px + c) % 64, py % 32, Nat.mod_lt _ (by decide), Nat.mod_lt _ (by decide), ⟨c, hc, hbit, rfl, rfl⟩,
      (pixel_mod acc.1 (px + c) py).trans hlit⟩
  · rintro ⟨_, _, -, -, ⟨c, hc, hbit, rfl, rfl⟩, hlit⟩
    exact ⟨c, hc, hbit, (pixel_mod acc.1 (px + c) py).symm.trans hlit⟩

/-! ### All rows -/

/-- A sprite no taller than the grid flips the pixels it covers, once each, and keeps the others. -/
theorem pixel_plotRows {px x y : Nat} (hx : x < 64) (hy : y < 32) (rows : List Byte) :
    ∀ (py : Nat) (acc : Display × Bool), rows.length ≤ 32 →
      (SpriteCovers px py rows x y → Display.pixel (plotRows px py rows acc).1 x y = !Display.pixel acc.1 x y) ∧
      (¬ SpriteCovers px py rows x y → Display.pixel (plotRows px py rows acc).1 x y = Display.pixel acc.1 x y) := by
  induction rows with
  | nil => exact fun py acc _ => ⟨fun h => absurd h (not_spriteCovers_nil px py x y), fun _ => rfl⟩
  | cons row rest ih =>
    intro py acc hlen
    obtain ⟨hflip, hkeep⟩ := ih (py + 1) (plotRow px py row acc) (Nat.le_of_succ_le hlen)
    rw [spriteCovers_cons, plotRows]
    by_cases hrow : SpriteCovers px py [row] x y
    · have hrest := not_spriteCovers_rest hlen hrow
      exact ⟨fun _ => (hkeep hrest).trans (pixel_plotRow_of_covers acc hx hy hrow), fun h => absurd (.inl hrow) h⟩
    · rw [pixel_plotRow_of_not_covers acc hx hy hrow] at hflip hkeep
      exact ⟨fun h => hflip (h.resolve_left hrow), fun h => hkeep (h ∘ .inr)⟩

/-- The pixels that the rows below cover are as lit after the first row as before it. -/
theorem coversLit_plotRow_rest {px py : Nat} {row : Byte} {rest : List Byte} (acc : Display × Bool) (hlen : rest.length < 32) :
    CoversLit (plotRow px py row acc).1 px (py + 1) rest ↔ CoversLit acc.1 px (py + 1) rest := by
  refine exists_congr fun x => exists_congr fun y => and_congr_right fun hx => and_congr_right fun hy =>
    and_congr_right fun hrest => ?_
  rw [pixel_plotRow_of_not_covers acc hx hy fun hrow => not_spriteCovers_rest hlen hrow hrest]

theorem coversLit_cons {fb : Display} {px py : Nat} {row : Byte} {rest : List Byte} :
    CoversLit fb px py (row :: rest) ↔ CoversLit fb px py [row] ∨ CoversLit fb px (py + 1) rest := by
  simp only [CoversLit, spriteCovers_cons (rest := rest), or_and_right, and_or_left, exists_or]

/-- A sprite no taller than the grid collides exactly when it covers a pixel that was lit before the whole draw. -/
theorem collision_plotRows_iff (px : Nat) (rows : List Byte) : ∀ (py : Nat) (acc : Display × Bool), rows.length ≤ 32 →
    ((plotRows px py rows acc).2 = true ↔ acc.2 = true ∨ CoversLit acc.1 px py rows) := by
  induction rows with
  | nil => simp [plotRows, CoversLit]
  | cons row rest ih =>
    intro py acc hlen
    rw [plotRows, ih _ _ (Nat.le_of_succ_le hlen), collision_plotRow_iff, coversLit_plotRow_rest acc hlen, or_assoc,
      ← coversLit_cons]

/-! ### The draw -/

theorem blit_collision_iff (fb : Display) (px py : Nat) {rows : List Byte} (hlen : rows.length ≤ 32) :
    (blit fb px py rows).2 = true ↔ CoversLit fb px py rows := by
  simp [blit, collision_plotRows_iff px rows py _ hlen]

/-- Settles O43: `Dxyn` writes the display of the blit, whose rows are at most 15, and then VF with its collision. -/
theorem drawXorsTheSprite : Obligations.DrawXorsTheSprite := by
  intro s x y n covers
  have hlen : (s.memReadList (s.iAddr 0) n.toNat).length ≤ 32 := by
    rw [length_memReadList]; omega
  have hpixel {X Y : Nat} (hX : X < 64) (hY : Y < 32) :=
    pixel_plotRows (px := (s.getV x).toNat) hX hY _ (s.getV y).toNat (s.fb, false) hlen
  have hcollision := blit_collision_iff s.fb (s.getV x).toNat (s.getV y).toNat hlen
  refine ⟨_, rfl, fun X Y hX hY => (hpixel hX hY).1, fun X Y hX hY => (hpixel hX hY).2, fun hlit => ?hit, fun hdark => ?miss,
    fun r hr => getV_setV_ne _ _ hr, rfl, rfl⟩
  case hit => rw [getV_setV_same, hcollision.mpr hlit]; rfl
  case miss =>
    have hnone := Bool.eq_false_iff.mpr <| mt hcollision.mp fun ⟨X, Y, hX, hY, hcov, hlit⟩ =>
      Bool.false_ne_true ((hdark X Y hX hY hcov).symm.trans hlit)
    rw [getV_setV_same, hnone]; rfl

end Sys2Proof.Machine

/-! PROOFS. What each host event does, said once (60_exceptions.md R246 to R249, 70_reset_and_hazards.md R270, R274), and what a
step can do, read from its outcome. -/

namespace Sys2Proof.Machine

theorem active_iff {s : State} : s.active = true ↔ s.run = .running ∧ s.fault = .none := by simp [State.active]

theorem active_eq_false_iff {s : State} : s.active = false ↔ ¬ (s.run = .running ∧ s.fault = .none) := by
  rw [← active_iff, Bool.not_eq_true]

/-! ### The events one by one -/

theorem load_of_le {s : State} {bytes : List Byte} (h : bytes.length ≤ 3584) :
    s.load bytes = ((s.memWriteList 0x200 bytes).setPc 0x200, .ok) := by
  have hfits : programFits bytes = true := decide_eq_true h
  rw [State.load, if_pos hfits]; rfl

theorem load_of_gt {s : State} {bytes : List Byte} (h : 3584 < bytes.length) : s.load bytes = (s, .programTooLarge) := by
  have hfits : ¬ programFits bytes = true := by simpa [programFits] using h
  rw [State.load, if_neg hfits]

theorem keyEdge_iff {s : State} {k : Nibble} {down : Bool} :
    s.keyEdge k down = true ↔ down = true ∧ s.key[k.toNat]'k.isLt = false := by simp [State.keyEdge]

/-- KEY[k] as the host says it, and nothing else. -/
def State.recordKey (s : State) (k : Nibble) (down : Bool) : State := { s with key := s.key.set k.toNat down k.isLt }

theorem setKey_of_wait {s : State} {k : Nibble} {down : Bool} (hedge : s.keyEdge k down = true) (hrun : s.run = .awaitingKey)
    (hfault : s.fault = .none) : s.setKey k down = ({ s.recordKey k down with keyEvt := ⟨true, k⟩ } : State).resolveWait k := by
  rw [State.setKey, if_pos hedge, if_pos (by simp [hrun, hfault])]; rfl

theorem setKey_of_edge {s : State} {k : Nibble} {down : Bool} (hedge : s.keyEdge k down = true)
    (hwait : ¬ (s.run = .awaitingKey ∧ s.fault = .none)) :
    s.setKey k down = { s.recordKey k down with keyEvt := ⟨true, k⟩ } := by
  rw [State.setKey, if_pos hedge, if_neg (by simpa using hwait)]; rfl

theorem setKey_of_not_edge {s : State} {k : Nibble} {down : Bool} (hedge : ¬ s.keyEdge k down = true) :
    s.setKey k down = s.recordKey k down := by
  rw [State.setKey, if_neg hedge]; rfl

theorem stepEvent_of_paused {s : State} (h : s.run = .paused ∧ s.fault = .none) : stepEvent s = instructionCycle s := by
  rw [stepEvent, if_pos (by simpa using h)]

theorem stepEvent_of_not_paused {s : State} (h : ¬ (s.run = .paused ∧ s.fault = .none)) : stepEvent s = .next s := by
  rw [stepEvent, if_neg (by simpa using h)]

/-- What an event that runs no instruction cycle makes of the state it is delivered to. -/
inductive EventEffect (s : State) : HostEvent → State → Prop where
  | reset : EventEffect s .reset s.resetEvent
  | loaded (bytes : List Byte) (fits : bytes.length ≤ 3584) :
      EventEffect s (.load bytes) (((s.memWriteList 0x200 bytes).setPc 0x200).emit (.loaded .ok))
  | refused (bytes : List Byte) : EventEffect s (.load bytes) (s.emit (.loaded .programTooLarge))
  | keyResolved (k : Nibble) (down : Bool) (edge : s.keyEdge k down = true) (waiting : s.run = .awaitingKey)
      (noFault : s.fault = .none) :
      EventEffect s (.setKey k down) (({ s.recordKey k down with keyEvt := ⟨true, k⟩ } : State).resolveWait k)
  | keyNoted (k : Nibble) (down : Bool) (edge : s.keyEdge k down = true)
      (notWaiting : ¬ (s.run = .awaitingKey ∧ s.fault = .none)) :
      EventEffect s (.setKey k down) { s.recordKey k down with keyEvt := ⟨true, k⟩ }
  | keyRecorded (k : Nibble) (down : Bool) (noEdge : ¬ s.keyEdge k down = true) :
      EventEffect s (.setKey k down) (s.recordKey k down)
  | paused (running : s.run = .running) : EventEffect s .pause { s with run := .paused }
  | resumed (paused : s.run = .paused) : EventEffect s .run { s with run := .running }
  | ignored (e : HostEvent) (quiet : e ∈ [.pause, .run, .step]) : EventEffect s e s

theorem eventEffect_load (s : State) (bytes : List Byte) :
    EventEffect s (.load bytes) ((s.load bytes).1.emit (.loaded (s.load bytes).2)) := by
  obtain h | h := Nat.lt_or_ge 3584 bytes.length
  · rw [load_of_gt h]; exact .refused bytes
  · rw [load_of_le h]; exact .loaded bytes h

theorem eventEffect_setKey (s : State) (k : Nibble) (down : Bool) : EventEffect s (.setKey k down) (s.setKey k down) := by
  by_cases hedge : s.keyEdge k down = true
  · by_cases hwait : s.run = .awaitingKey ∧ s.fault = .none
    · rw [setKey_of_wait hedge hwait.1 hwait.2]; exact .keyResolved k down hedge hwait.1 hwait.2
    · rw [setKey_of_edge hedge hwait]; exact .keyNoted k down hedge hwait
  · rw [setKey_of_not_edge hedge]; exact .keyRecorded k down hedge

theorem eventEffect_pause (s : State) : EventEffect s .pause s.pauseEvent := by
  by_cases h : s.run = .running
  · rw [State.pauseEvent, if_pos h]; exact .paused h
  · rw [State.pauseEvent, if_neg h]; exact .ignored .pause (by simp)

theorem eventEffect_run (s : State) : EventEffect s .run s.runEvent := by
  by_cases h : s.run = .paused
  · rw [State.runEvent, if_pos h]; exact .resumed h
  · rw [State.runEvent, if_neg h]; exact .ignored .run (by simp)

/-- The events of the last case of `StepEffect`. -/
theorem eventEffect_of_deliver {e : HostEvent} {s t : State} (h : deliver e s = .next t) (hrun : e ≠ .runFrame)
    (hstep : e = .step → ¬ (s.run = .paused ∧ s.fault = .none)) : EventEffect s e t := by
  cases e with
  | reset => cases h; exact .reset
  | load bytes => cases h; exact eventEffect_load s bytes
  | runFrame => exact absurd rfl hrun
  | setKey k down => cases h; exact eventEffect_setKey s k down
  | pause => cases h; exact eventEffect_pause s
  | run => cases h; exact eventEffect_run s
  | step =>
    cases (stepEvent_of_not_paused (hstep rfl)).symm.trans h
    exact .ignored .step (by simp)

/-! ### What an event leaves to the frame and the host -/

theorem EventEffect.params {s t : State} {e : HostEvent} (h : EventEffect s e t) : t.params = s.params := by
  cases h with
  | loaded bytes _ => exact memWriteList_params s _ bytes
  | _ => rfl

theorem EventEffect.inbox {s t : State} {e : HostEvent} (h : EventEffect s e t) : t.inbox = s.inbox := by
  cases h with
  | loaded bytes _ => exact memWriteList_inbox s _ bytes
  | _ => rfl

theorem EventEffect.frameLeft {s t : State} {e : HostEvent} (h : EventEffect s e t) (hb : s.frameLeft = 0) : t.frameLeft = 0 := by
  cases h with
  | reset => rfl
  | loaded bytes _ => exact (memWriteList_frameLeft s _ bytes).trans hb
  | _ => exact hb

/-! ### A step, from its outcome -/

theorem stepEffect_of_step {s t : State} (h : step s = .next t) : StepEffect s t := by
  obtain ⟨u, hu, he⟩ := step_cases s
  cases hu.symm.trans h
  exact he

theorem CycleEffect.params {s t : State} (h : CycleEffect s t) : t.params = s.params := h.keeps.1

theorem CycleEffect.frameLeft {s t : State} (h : CycleEffect s t) : t.frameLeft = s.frameLeft := h.keeps.2.1

theorem CycleEffect.inbox {s t : State} (h : CycleEffect s t) : t.inbox = s.inbox := h.keeps.2.2.1

theorem CycleEffect.key {s t : State} (h : CycleEffect s t) : t.key = s.key := h.keeps.2.2.2

theorem afterCycle_params (s : State) : s.afterCycle.params = s.params := (afterCycle_keeps s).1

theorem afterCycle_inbox (s : State) : s.afterCycle.inbox = s.inbox := (afterCycle_keeps s).2.1

theorem StepEffect.params {s t : State} (h : StepEffect s t) : t.params = s.params := by
  cases h with
  | inFrame _ _ u _ effect new => rw [new, afterCycle_params, effect.params]
  | first _ _ _ _ _ u _ effect new => rw [new, afterCycle_params, effect.params]
  | single _ _ _ _ _ _ effect => exact effect.params
  | event _ _ _ _ notRun notStep new => exact (eventEffect_of_deliver new notRun notStep).params
  | empty _ _ _ _ _ new => rw [new, tick_params]
  | silent _ _ new | broken _ _ new | idle _ _ _ _ new => rw [new]

/-- Settles O20: each thing a step can do keeps the parameters. -/
theorem parametersNeverChange : Obligations.ParametersNeverChange := fun _ _ h => (stepEffect_of_step h).params

end Sys2Proof.Machine

/-! PROOFS. The invariant of the state holds after reset and every step keeps it. -/

namespace Sys2Proof.Machine

/-! ### The clauses that do not speak of the frame in progress -/

/-- The invariant without the two clauses of the frame: what every cycle and every event keeps, wherever it stands. -/
structure State.BodyInv (s : State) : Prop where
  memory : Memory.wf s.params.font s.mem = true
  fault_not_waiting : s.fault ≠ .none → s.run ≠ .awaitingKey
  overflow_full : s.fault = .stackOverflow → s.sp = 16
  underflow_empty : s.fault = .stackUnderflow → s.sp = 0
  wait_no_event : s.run = .awaitingKey → s.keyEvt = ⟨false, 0⟩
  event_cleared : s.keyEvt.valid = false → s.keyEvt.key = 0

theorem State.Inv.body {s : State} (h : s.Inv) : s.BodyInv := { h with }

theorem State.BodyInv.inv {s : State} (h : s.BodyInv) (hactive : s.frameLeft ≠ 0 → s.active = true)
    (hbound : s.frameLeft ≤ s.params.cyclesPerFrame) : s.Inv :=
  { h with frame_active := hactive, frame_bound := hbound }

/-- Between frames the two clauses of the frame say nothing. -/
theorem State.BodyInv.inv_of_boundary {s : State} (h : s.BodyInv) (hb : s.frameLeft = 0) : s.Inv :=
  h.inv (fun hne => absurd hb hne) (hb ▸ Nat.zero_le _)

/-- The clauses read memory, RUN, KEYEVT, FAULT and SP; the last one only under a fault. -/
theorem State.BodyInv.congr {s t : State} (h : s.BodyInv) (hmem : Memory.wf t.params.font t.mem = true) (hrun : t.run = s.run)
    (hevt : t.keyEvt = s.keyEvt) (hfault : t.fault = s.fault) (hsp : s.fault ≠ .none → t.sp = s.sp) : t.BodyInv where
  memory := hmem
  fault_not_waiting := by rw [hfault, hrun]; exact h.fault_not_waiting
  overflow_full hf := by
    rw [hfault] at hf
    rw [hsp (by simp [hf]), h.overflow_full hf]
  underflow_empty hf := by
    rw [hfault] at hf
    rw [hsp (by simp [hf]), h.underflow_empty hf]
  wait_no_event := by rw [hrun, hevt]; exact h.wait_no_event
  event_cleared := by rw [hevt]; exact h.event_cleared

theorem State.BodyInv.tick {s : State} (h : s.BodyInv) : s.tick.BodyInv := h.congr h.memory rfl rfl rfl fun _ => rfl

/-! ### Reset -/

theorem bodyInv_resetEvent (s : State) : s.resetEvent.BodyInv := by constructor <;> simp [State.resetEvent, State.reset]

/-- Settles O15: reset is between frames, without fault, wait or key event, and its memory is the reset image. -/
theorem resetMeetsTheInvariant : Obligations.ResetMeetsTheInvariant :=
  (bodyInv_resetEvent State.reset).inv_of_boundary rfl

/-! ### An instruction cycle -/

/-- An instruction of a machine that neither waits nor is stopped keeps the clauses: a fault it raises names the stack it found, and
`Fx0A` clears KEYEVT as it begins the wait. -/
theorem ControlEffect.bodyInv {i : Instr} {s t : State} (h : ControlEffect i s t) (hs : s.BodyInv)
    (hmem : Memory.wf t.params.font t.mem = true) (hfault : s.fault = .none) (hrun : s.run ≠ .awaitingKey) : t.BodyInv := by
  cases h with
  | plain run evt fault => exact hs.congr hmem run evt fault fun hne => absurd hfault hne
  | overflow run evt fault old new =>
    rw [← run] at hrun
    exact ⟨hmem, fun _ => hrun, fun _ => new, fun hu => by simp [fault] at hu, fun hw => absurd hw hrun,
      evt ▸ hs.event_cleared⟩
  | underflow run evt fault old new =>
    rw [← run] at hrun
    exact ⟨hmem, fun _ => hrun, fun ho => by simp [fault] at ho, fun _ => new, fun hw => absurd hw hrun,
      evt ▸ hs.event_cleared⟩
  | wait x instr run evt fault =>
    rw [hfault] at fault
    exact ⟨hmem, fun hne => absurd fault hne, fun ho => by simp [fault] at ho, fun hu => by simp [fault] at hu, fun _ => evt,
      fun _ => by rw [evt]⟩

theorem CycleEffect.bodyInv {s t : State} (h : CycleEffect s t) (hs : s.BodyInv) (hfault : s.fault = .none)
    (hrun : s.run ≠ .awaitingKey) : t.BodyInv := by
  cases h with
  | ran i decoded ran keeps control =>
    exact control.bodyInv (hs.congr hs.memory rfl rfl rfl fun _ => rfl) (keeps.wf hs.memory) hfault hrun
  | passed r rejected logged =>
    rw [logged]
    exact hs.congr hs.memory rfl rfl rfl fun _ => rfl

/-- The end of a cycle keeps a frame in progress only on an active machine, and never lengthens it. -/
theorem inv_afterCycle {s : State} (hs : s.BodyInv) (hbound : s.frameLeft ≤ s.params.cyclesPerFrame) : s.afterCycle.Inv := by
  have hbody : ∀ n, ({ s with frameLeft := n } : State).BodyInv := fun n => hs.congr hs.memory rfl rfl rfl fun _ => rfl
  obtain ⟨_, h⟩ | ⟨_, _, h⟩ | ⟨hactive, _, h⟩ := afterCycle_cases s
  · rw [h]
    exact (hbody 0).inv_of_boundary rfl
  · rw [h]
    exact (hbody 0).tick.inv_of_boundary rfl
  · rw [h]
    exact (hbody _).inv (fun _ => hactive) (Nat.le_trans (Nat.sub_le _ 1) hbound)

/-- A cycle of a frame, from the state that has the cycles of the frame still to attempt. -/
theorem CycleEffect.inv_afterCycle {s t : State} (h : CycleEffect s t) (hs : s.BodyInv) (hactive : s.active = true)
    (hbound : s.frameLeft ≤ s.params.cyclesPerFrame) : t.afterCycle.Inv := by
  obtain ⟨hrun, hfault⟩ := active_iff.mp hactive
  exact Machine.inv_afterCycle (h.bodyInv hs hfault (by simp [hrun])) (by rw [h.params, h.frameLeft]; exact hbound)

/-! ### An event -/

/-- A key press leaves KEYEVT clear at the end of a wait; where none is pending, no wait begins. -/
theorem EventEffect.bodyInv {e : HostEvent} {s t : State} (h : EventEffect s e t) (hs : s.BodyInv) : t.BodyInv := by
  cases h with
  | reset => exact bodyInv_resetEvent s
  | loaded bytes _ =>
    exact hs.congr (wf_memWriteList bytes s _ hs.memory) (memWriteList_run s _ bytes) (memWriteList_keyEvt s _ bytes)
      (memWriteList_fault s _ bytes) fun _ => memWriteList_sp s _ bytes
  | keyResolved k down _ _ noFault =>
    exact ⟨hs.memory, fun _ => by simp, hs.overflow_full, hs.underflow_empty, fun _ => rfl, fun _ => rfl⟩
  | keyNoted k down _ notWaiting =>
    refine ⟨hs.memory, hs.fault_not_waiting, hs.overflow_full, hs.underflow_empty, fun hwait => ?_, (nomatch ·)⟩
    have hnone : s.fault = .none := by_contra fun hne => hs.fault_not_waiting hne hwait
    exact absurd ⟨hwait, hnone⟩ notWaiting
  | paused _ | resumed _ =>
    exact ⟨hs.memory, fun _ => by simp, hs.overflow_full, hs.underflow_empty, (nomatch ·), hs.event_cleared⟩
  | refused _ | keyRecorded _ _ _ | ignored _ _ => exact hs.congr hs.memory rfl rfl rfl fun _ => rfl

/-! ### A step -/

theorem StepEffect.inv {s t : State} (h : StepEffect s t) (hs : s.Inv) : t.Inv := by
  have hbody (rest : List HostEvent) (n : Nat) : ({ s with inbox := rest, frameLeft := n } : State).BodyInv :=
    hs.body.congr hs.memory rfl rfl rfl fun _ => rfl
  cases h with
  | silent _ _ new => rw [new]; exact hs
  | broken inFrame inactive _ => exact absurd (hs.frame_active inFrame) (by simp [inactive])
  | inFrame _ active u _ effect new => rw [new]; exact effect.inv_afterCycle hs.body active hs.frame_bound
  | first rest _ _ active _ u _ effect new =>
    rw [new]
    exact effect.inv_afterCycle (hbody rest _) active (Nat.le_refl _)
  | empty rest boundary _ _ _ new =>
    rw [new]
    exact (hbody rest s.frameLeft).tick.inv_of_boundary boundary
  | idle rest boundary _ _ new => rw [new]; exact (hbody rest s.frameLeft).inv_of_boundary boundary
  | single rest boundary _ paused noFault _ effect =>
    have hrun : s.run ≠ .awaitingKey := by simp [paused]
    exact (effect.bodyInv (hbody rest s.frameLeft) noFault hrun).inv_of_boundary (effect.frameLeft.trans boundary)
  | event e rest boundary _ notRun notStep new =>
    have heffect := eventEffect_of_deliver new notRun notStep
    exact (heffect.bodyInv (hbody rest s.frameLeft)).inv_of_boundary (heffect.frameLeft boundary)

/-- Settles O16: every step answers a next state, and each thing it can do keeps the invariant. -/
theorem everyStepKeepsTheInvariant : Obligations.EveryStepKeepsTheInvariant := by
  intro s hs
  obtain ⟨t, ht, heffect⟩ := step_cases s
  exact ⟨t, ht, heffect.inv hs⟩

end Sys2Proof.Machine

/-! PROOFS. What each operation leaves unchanged (40_cycle_and_control_flow.md R121, D11), and the frames of the instructions. -/

namespace Sys2Proof.Machine

/-! ### Frames in general -/

theorem UnchangedExcept.refl (w : List Part) (s : State) : UnchangedExcept w s s := by
  constructor
  case stack => exact fun _ => ⟨rfl, rfl⟩
  all_goals intros; rfl

theorem UnchangedExcept.trans {w : List Part} {s t u : State} (h : UnchangedExcept w s t) (h' : UnchangedExcept w t u) :
    UnchangedExcept w s u where
  reg r hr := (h'.reg r hr).trans (h.reg r hr)
  index hw := (h'.index hw).trans (h.index hw)
  pc hw := (h'.pc hw).trans (h.pc hw)
  stack hw := ⟨(h'.stack hw).1.trans (h.stack hw).1, (h'.stack hw).2.trans (h.stack hw).2⟩
  dt hw := (h'.dt hw).trans (h.dt hw)
  st hw := (h'.st hw).trans (h.st hw)
  display hw := (h'.display hw).trans (h.display hw)
  keys hw := (h'.keys hw).trans (h.keys hw)
  keyEvt hw := (h'.keyEvt hw).trans (h.keyEvt hw)
  run hw := (h'.run hw).trans (h.run hw)
  waitReg hw := (h'.waitReg hw).trans (h.waitReg hw)
  fault hw := (h'.fault hw).trans (h.fault hw)
  cell a ha hw := (h'.cell a ha hw).trans (h.cell a ha hw)
  params hw := (h'.params hw).trans (h.params hw)
  frameLeft hw := (h'.frameLeft hw).trans (h.frameLeft hw)
  inbox hw := (h'.inbox hw).trans (h.inbox hw)
  outbox hw := (h'.outbox hw).trans (h.outbox hw)
  randCount hw := (h'.randCount hw).trans (h.randCount hw)

theorem UnchangedExcept.mono {w w' : List Part} {s t : State} (h : UnchangedExcept w s t) (hw : w ⊆ w') :
    UnchangedExcept w' s t where
  reg r hr := h.reg r (mt (@hw _) hr)
  index hn := h.index (mt (@hw _) hn)
  pc hn := h.pc (mt (@hw _) hn)
  stack hn := h.stack (mt (@hw _) hn)
  dt hn := h.dt (mt (@hw _) hn)
  st hn := h.st (mt (@hw _) hn)
  display hn := h.display (mt (@hw _) hn)
  keys hn := h.keys (mt (@hw _) hn)
  keyEvt hn := h.keyEvt (mt (@hw _) hn)
  run hn := h.run (mt (@hw _) hn)
  waitReg hn := h.waitReg (mt (@hw _) hn)
  fault hn := h.fault (mt (@hw _) hn)
  cell a ha hn := h.cell a ha (mt (@hw _) hn)
  params hn := h.params (mt (@hw _) hn)
  frameLeft hn := h.frameLeft (mt (@hw _) hn)
  inbox hn := h.inbox (mt (@hw _) hn)
  outbox hn := h.outbox (mt (@hw _) hn)
  randCount hn := h.randCount (mt (@hw _) hn)

/-! ### The frame of each operation -/

theorem setV_frame (s : State) (x : Nibble) (b : Byte) : UnchangedExcept [.reg x] s (s.setV x b) :=
  { UnchangedExcept.refl _ s with reg := fun r hr => getV_setV_ne s b fun h => hr (by simp [h]) }

theorem setI_frame (s : State) (w : Word) : UnchangedExcept [.index] s (s.setI w) :=
  { UnchangedExcept.refl _ s with index := absurd (by simp) }

theorem setPc_frame (s : State) (w : Word) : UnchangedExcept [.pc] s (s.setPc w) :=
  { UnchangedExcept.refl _ s with pc := absurd (by simp) }

theorem skipIf_frame (s : State) (c : Bool) : UnchangedExcept [.pc] s (s.skipIf c) := by
  cases c
  · exact .refl _ s
  · exact setPc_frame s (s.pc + 2)

/-- A write of PC, SP and STACK: what a call and a return are. -/
theorem setPcAndStack_frame (s : State) (w : Word) (n : Fin 17) (stack : Vector Word 16) :
    UnchangedExcept [.pc, .stack] s { s with pc := w, sp := n, stack := stack } :=
  { UnchangedExcept.refl _ s with pc := absurd (by simp), stack := absurd (by simp) }

theorem raiseFault_frame (s : State) (f : FaultLatch) : UnchangedExcept [.pc, .fault] s (s.raiseFault f) :=
  { UnchangedExcept.refl _ s with pc := absurd (by simp), fault := absurd (by simp) }

theorem emit_frame (s : State) (o : HostOutput) : UnchangedExcept [.outbox] s (s.emit o) :=
  { UnchangedExcept.refl _ s with outbox := absurd (by simp) }

theorem tick_frame (s : State) : UnchangedExcept [.dt, .st] s s.tick :=
  { UnchangedExcept.refl _ s with dt := absurd (by simp), st := absurd (by simp) }

theorem writeFlagged_frame (s : State) (x : Nibble) (c : Bool) (b : Byte) :
    UnchangedExcept [.reg x, .reg 15] s (s.writeFlagged x c b) :=
  ((setV_frame s vf _).mono (by simp)).trans ((setV_frame _ x b).mono (by simp))

theorem drawRandom_frame (s : State) : UnchangedExcept [.randCount] s s.drawRandom.2 :=
  { UnchangedExcept.refl _ s with randCount := absurd (by simp) }

/-- A run of stores changes the cells its addresses lie in. -/
theorem memWriteList_frame {s : State} {a : Nat} {bs : List Byte} {w : List Part}
    (hw : ∀ k, k < bs.length → .cell ((a + k) % Config.memSize) ∈ w) : UnchangedExcept w s (s.memWriteList a bs) where
  reg r _ := getV_memWriteList s a bs r
  index _ := memWriteList_i s a bs
  pc _ := memWriteList_pc s a bs
  stack _ := ⟨memWriteList_sp s a bs, memWriteList_stack s a bs⟩
  dt _ := memWriteList_dt s a bs
  st _ := memWriteList_st s a bs
  display _ := memWriteList_fb s a bs
  keys _ := memWriteList_key s a bs
  keyEvt _ := memWriteList_keyEvt s a bs
  run _ := memWriteList_run s a bs
  waitReg _ := memWriteList_waitReg s a bs
  fault _ := memWriteList_fault s a bs
  cell a' ha' hn := memRead_memWriteList_of_ne bs s a a' fun k hk heq => hn (by
    rw [Nat.mod_eq_of_lt ha'] at heq
    exact heq ▸ hw k hk)
  params _ := memWriteList_params s a bs
  frameLeft _ := memWriteList_frameLeft s a bs
  inbox _ := memWriteList_inbox s a bs
  outbox _ := memWriteList_outbox s a bs
  randCount _ := memWriteList_randCount s a bs

/-- A load of registers changes the registers it names, one after the other. -/
theorem setRegsFrom_frame {w : List Part} (bs : List Byte) : ∀ (s : State) (k : Nat),
    (∀ j, k ≤ j → j < k + bs.length → .reg (BitVec.ofNat 4 j) ∈ w) → UnchangedExcept w s (s.setRegsFrom k bs) := by
  induction bs with
  | nil => exact fun s k _ => .refl w s
  | cons b rest ih =>
    intro s k hw
    rw [List.length_cons] at hw
    have hfirst : UnchangedExcept w s (s.setV (BitVec.ofNat 4 k) b) :=
      (setV_frame s _ b).mono (by simpa using hw k (Nat.le_refl k) (by omega))
    exact hfirst.trans (ih _ (k + 1) fun j hj hlt => hw j (by omega) (by omega))

/-! ### Instructions that write one part -/

/-- Settles O53: a jump and a skip are one write of PC, a call and a return one write of PC and the stack. -/
theorem frameOfControlTransfers : Obligations.FrameOfControlTransfers := by
  intro s x y kk nnn
  refine ⟨?jumps, fun h => ⟨_, exec_call_of_lt nnn s h, ?call⟩, fun h => ⟨_, exec_ret_of_pos s h, ?ret⟩⟩
  case jumps =>
    simp only [List.forall_mem_cons]
    exact ⟨⟨_, rfl, setPc_frame s _⟩, ⟨_, rfl, setPc_frame s _⟩, ⟨_, rfl, skipIf_frame s _⟩, ⟨_, rfl, skipIf_frame s _⟩,
      ⟨_, rfl, skipIf_frame s _⟩, ⟨_, rfl, skipIf_frame s _⟩, ⟨_, rfl, skipIf_frame s _⟩, ⟨_, rfl, skipIf_frame s _⟩,
      List.forall_mem_nil _⟩
  case call | ret => exact setPcAndStack_frame s _ _ _

/-- Settles O54: one write of V[x]; the two writes of a flag writer; a draw of a random byte and a write of V[x]. -/
theorem frameOfRegisterInstructions : Obligations.FrameOfRegisterInstructions := by
  intro s x y kk
  refine ⟨?plain, ?flagged, ⟨_, rfl, ?random⟩⟩
  case plain =>
    simp only [List.forall_mem_cons]
    exact ⟨⟨_, rfl, setV_frame s x _⟩, ⟨_, rfl, setV_frame s x _⟩, ⟨_, rfl, setV_frame s x _⟩, ⟨_, rfl, setV_frame s x _⟩,
      ⟨_, rfl, setV_frame s x _⟩, ⟨_, rfl, setV_frame s x _⟩, ⟨_, rfl, setV_frame s x _⟩, List.forall_mem_nil _⟩
  case flagged =>
    simp only [List.forall_mem_cons]
    exact ⟨⟨_, rfl, writeFlagged_frame s x _ _⟩, ⟨_, rfl, writeFlagged_frame s x _ _⟩, ⟨_, rfl, writeFlagged_frame s x _ _⟩,
      ⟨_, rfl, writeFlagged_frame s x _ _⟩, ⟨_, rfl, writeFlagged_frame s x _ _⟩, List.forall_mem_nil _⟩
  case random => exact ((drawRandom_frame s).mono (by simp)).trans ((setV_frame _ x _).mono (by simp))

/-- Settles O57: the draw writes FB and then VF. -/
theorem frameOfDraw : Obligations.FrameOfDraw := fun s _ _ _ =>
  ⟨_, rfl, ((setFb_frame s _).mono (by simp)).trans ((setV_frame _ vf _).mono (by simp))⟩

/-- Settles O58: each is one update of the parts named. -/
theorem frameOfTimerWritesAndKeyWait : Obligations.FrameOfTimerWritesAndKeyWait := fun s _ =>
  ⟨⟨_, rfl, { UnchangedExcept.refl _ s with dt := absurd (by simp) }⟩,
    ⟨_, rfl, { UnchangedExcept.refl _ s with st := absurd (by simp) }⟩,
    ⟨_, rfl, { UnchangedExcept.refl _ s with
      run := absurd (by simp), waitReg := absurd (by simp), keyEvt := absurd (by simp) }⟩⟩

/-! ### Memory transfers -/

/-- Settles O55: three writes of I; and `Fx65` loads the registers of `regsThrough`. -/
theorem frameOfIndexInstructions : Obligations.FrameOfIndexInstructions := by
  intro s x nnn
  refine ⟨?index, ⟨_, rfl, setRegsFrom_frame _ s 0 fun k _ hk => ?load⟩⟩
  case index =>
    simp only [List.forall_mem_cons]
    exact ⟨⟨_, rfl, setI_frame s _⟩, ⟨_, rfl, setI_frame s _⟩, ⟨_, rfl, setI_frame s _⟩, List.forall_mem_nil _⟩
  case load =>
    rw [length_memReadList, Nat.zero_add] at hk
    exact List.mem_map_of_mem (List.mem_range.mpr hk)

/-- The k-th address of a store from I lies in a cell of `storeCells`. -/
theorem cell_mem_storeCells (s : State) {k n : Nat} (h : k < n) : .cell ((s.iAddr 0 + k) % Config.memSize) ∈ s.storeCells n :=
  List.mem_map.mpr ⟨k, List.mem_range.mpr h, rfl⟩

/-- Settles O56: the two stores, of 3 bytes and of x + 1, from I up. -/
theorem frameOfStores : Obligations.FrameOfStores := by
  intro s x
  refine ⟨⟨_, rfl, memWriteList_frame fun k hk => ?bcd⟩, ⟨_, rfl, memWriteList_frame fun k hk => ?regs⟩⟩
  case bcd => exact cell_mem_storeCells s hk
  case regs => exact cell_mem_storeCells s (length_regsUpTo s x ▸ hk)

end Sys2Proof.Machine

/-! PROOFS. Single instructions: the stack faults and the return of a call (40_cycle_and_control_flow.md, 60_exceptions.md), the flag
writers and the random load (41_load_and_alu.md), the keypad and timer transfers (44_keypad_and_timers.md); and sample words. -/

namespace Sys2Proof.Machine

/-- Settles O1: the decoder evaluated on each word. -/
theorem sampleWordsDecode : Obligations.SampleWordsDecode := by
  unfold Obligations.SampleWordsDecode
  decide

/-! ### The cycle, once the word is decoded -/

theorem instructionCycle_of_ok {s : State} {i : Instr} (h : decodeWord s.fetch = .ok i) :
    instructionCycle s = exec i s.advancePc := by
  simp only [instructionCycle, h]

theorem instructionCycle_of_error {s : State} {r : Reject} (h : decodeWord s.fetch = .error r) :
    instructionCycle s = .next (s.advancePc.emit (.unknownOpcode s.fetch s.pc)) := by
  simp only [instructionCycle, h]

/-- Settles O12: the PC advance, then the diagnostic. -/
theorem unrecognisedWordIsLoggedAndPassedOver : Obligations.UnrecognisedWordIsLoggedAndPassedOver := fun s _ h =>
  ⟨_, instructionCycle_of_error h, rfl, rfl,
    ((setPc_frame s _).mono (by simp)).trans ((emit_frame s.advancePc _).mono (by simp))⟩

/-! ### Call and return -/

/-- Settles O26: the equation of a call below the limit. -/
theorem callPushesTheReturnAddress : Obligations.CallPushesTheReturnAddress := by
  intro s nnn h
  refine ⟨_, exec_call_of_lt nnn s h, toNat_addr12_toWord nnn, rfl, Vector.getElem_set_self h, fun k hk hne => ?_, fun _ => rfl, rfl⟩
  exact Vector.getElem_set_ne h hk hne.symm

/-- Settles O28: the return pops the slot the call has stored to. -/
theorem callThenReturnComesBack : Obligations.CallThenReturnComesBack := by
  intro s nnn h
  have hpc : ∀ h', (s.stack.set s.sp.val s.pc h)[s.sp.val + 1 - 1]'h' = s.pc := fun _ => Vector.getElem_set_self h
  exact ⟨_, _, exec_call_of_lt nnn s h, exec_ret_of_pos _ (Nat.succ_pos _), hpc _, rfl,
    { UnchangedExcept.refl _ s with pc := fun _ => hpc _, stack := absurd (by simp) }⟩

/-- A fault raised in a cycle takes the PC advance back: only the latch differs from the state before the cycle. -/
theorem raiseFault_advancePc_frame (s : State) (f : FaultLatch) : UnchangedExcept [.fault] s (s.advancePc.raiseFault f) :=
  { UnchangedExcept.refl _ s with pc := fun _ => BitVec.add_sub_cancel s.pc 2, fault := absurd (by simp) }

/-- Settles O29: each cycle is its PC advance and `raiseFault`. -/
theorem stackFaultsLatchAndUndoTheCycle : Obligations.StackFaultsLatchAndUndoTheCycle := by
  intro s
  refine ⟨fun nnn hd hsp => ⟨_, (instructionCycle_of_ok hd).trans (exec_call_of_full nnn s.advancePc ?full), rfl, ?_⟩,
    fun hd hsp => ⟨_, (instructionCycle_of_ok hd).trans (exec_ret_of_empty s.advancePc ?empty), rfl, ?_⟩⟩
  case full => rw [advancePc_sp, hsp]; decide
  case empty => rw [advancePc_sp, hsp]; decide
  all_goals exact raiseFault_advancePc_frame s _

/-! ### The flag writers -/

@[simp] theorem getV_writeFlagged_same (s : State) (x : Nibble) (c : Bool) (b : Byte) : (s.writeFlagged x c b).getV x = b := by
  rw [getV_writeFlagged, if_pos rfl]

theorem getV_writeFlagged_vf (s : State) {x : Nibble} (c : Bool) (b : Byte) (hx : x ≠ 15) :
    (s.writeFlagged x c b).getV 15 = flagByte c := by
  rw [getV_writeFlagged, if_neg hx.symm, if_pos rfl]

theorem getV_writeFlagged_ne (s : State) {r x : Nibble} (c : Bool) (b : Byte) (hx : r ≠ x) (hvf : r ≠ 15) :
    (s.writeFlagged x c b).getV r = s.getV r := by
  rw [getV_writeFlagged, if_neg hx, if_neg hvf]

theorem flagByte_decide (p : Prop) [Decidable p] : flagByte (decide p) = if p then 1 else 0 := by simp [flagByte]

theorem toNat_flagByte (c : Bool) : (flagByte c).toNat = c.toNat := by cases c <;> rfl

/-- The exact difference taken modulo 256, written without a borrow. -/
theorem toNat_subResult (a b : Byte) : (subResult a b).toNat = (256 + a.toNat - b.toNat) % 256 := by
  have hb : b.toNat < 256 := b.isLt
  rw [subResult, BitVec.toNat_ofInt]
  omega

theorem toNat_shrResult (a : Byte) : (shrResult a).toNat = a.toNat / 2 := by
  rw [shrResult, BitVec.toNat_ushiftRight, Nat.shiftRight_eq_div_pow, pow_one]

theorem toNat_shlResult (a : Byte) : (shlResult a).toNat = 2 * a.toNat % 256 := by
  rw [shlResult, BitVec.toNat_shiftLeft, Nat.shiftLeft_eq, pow_one, Nat.mul_comm]

theorem toNat_shrFlag (a : Byte) : (shrFlag a).toNat = a.toNat % 2 := by
  rw [shrFlag, BitVec.getLsbD, Nat.testBit_zero]
  obtain h | h := Nat.mod_two_eq_zero_or_one a.toNat <;> simp [h]

/-- Bit 7 of a byte, the top one, is its half: 0 below 128 and 1 from 128 up. -/
theorem toNat_shlFlag (a : Byte) : (shlFlag a).toNat = a.toNat / 128 := by
  have ha : a.toNat < 256 := a.isLt
  rw [shlFlag, BitVec.getLsbD, Nat.testBit_eq_decide_div_mod_eq]
  obtain h | h := Nat.lt_or_ge a.toNat 128
  · simp [Nat.div_eq_of_lt h]
  · have hone : a.toNat / 128 = 1 := by omega
    simp [hone]

/-- Settles O35: the result and the flag of `writeFlagged`, both from the old operands. -/
theorem addAndSubtractWithFlag : Obligations.AddAndSubtractWithFlag := by
  intro s x y
  refine ⟨⟨_, rfl, ?addResult, fun hx => ?addFlag, fun r hr hvf => getV_writeFlagged_ne s _ _ hr hvf⟩,
    ⟨_, rfl, ?subResult, fun hx => ?subFlag, fun r hr hvf => getV_writeFlagged_ne s _ _ hr hvf⟩,
    ⟨_, rfl, ?subnResult, fun hx => ?subnFlag, fun r hr hvf => getV_writeFlagged_ne s _ _ hr hvf⟩⟩
  case addResult => rw [getV_writeFlagged_same, toNat_addResult]
  case subResult | subnResult => rw [getV_writeFlagged_same, toNat_subResult]
  all_goals exact (getV_writeFlagged_vf s _ _ hx).trans (flagByte_decide _)

/-- Settles O36: the result and the flag of `writeFlagged`; V[y] is not read. -/
theorem shiftsWithFlag : Obligations.ShiftsWithFlag := by
  intro s x y
  refine ⟨⟨_, rfl, ?shrResult, fun hx => ?shrFlag, fun r hr hvf => getV_writeFlagged_ne s _ _ hr hvf⟩,
    ⟨_, rfl, ?shlResult, fun hx => ?shlFlag, fun r hr hvf => getV_writeFlagged_ne s _ _ hr hvf⟩⟩
  case shrResult => rw [getV_writeFlagged_same, toNat_shrResult]
  case shrFlag => rw [getV_writeFlagged_vf s _ _ hx, toNat_flagByte, toNat_shrFlag]
  case shlResult => rw [getV_writeFlagged_same, toNat_shlResult]
  case shlFlag => rw [getV_writeFlagged_vf s _ _ hx, toNat_flagByte, toNat_shlFlag]

/-- Settles O37: a bit of the mask that is 0 is 0 in the result. -/
theorem randomByteIsMasked : Obligations.RandomByteIsMasked := by
  intro s x kk
  refine ⟨_, rfl, getV_setV_same _ x _, fun k hk => ?_, rfl, fun r hr => getV_setV_ne _ _ hr⟩
  rw [getV_setV_same, BitVec.getLsbD_and, hk, Bool.and_false]

/-! ### Keypad and timers -/

/-- A byte names a key that is down exactly when it is the number of one (44_keypad_and_timers.md R212). -/
theorem keyDown_iff {s : State} {b : Byte} :
    s.keyDown b = true ↔ ∃ k : Nibble, b.toNat = k.toNat ∧ s.key[k.toNat]'k.isLt = true := by
  constructor
  · intro h
    unfold State.keyDown at h
    by_cases hb : b.toNat < 16
    · rw [dif_pos hb] at h
      exact ⟨BitVec.ofNatLT b.toNat hb, rfl, h⟩
    · rw [dif_neg hb] at h
      cases h
  · rintro ⟨k, hb, hk⟩
    rw [State.keyDown, dif_pos (hb ▸ k.isLt)]
    simp only [hb, hk]

/-- Settles O32: the skips on `keyDown` and on its negation. -/
theorem keySkips : Obligations.KeySkips := by
  intro s x
  have hskp : exec (.skp x) s = .next (s.skipIf (decide (s.keyDown (s.getV x) = true))) := by
    rw [Bool.decide_eq_true]; rfl
  have hsknp : exec (.sknp x) s = .next (s.skipIf (decide (¬ s.keyDown (s.getV x) = true))) := by
    rw [decide_not, Bool.decide_eq_true]; rfl
  simp only [← keyDown_iff]
  exact ⟨skip_of_exec_eq hskp, skip_of_exec_eq_not hsknp⟩

/-- Settles O45: one write of V[x], of DT, of ST. -/
theorem timerTransfers : Obligations.TimerTransfers := fun s x =>
  ⟨⟨s.setV x s.dt, rfl, getV_setV_same s x s.dt, rfl, fun _ hr => getV_setV_ne s _ hr⟩,
    ⟨_, rfl, rfl, rfl, fun _ => rfl, rfl⟩, ⟨_, rfl, rfl, rfl, fun _ => rfl, rfl⟩⟩

/-- Settles O46: the three writes of `Fx0A`. -/
theorem keyWaitSuspendsTheMachine : Obligations.KeyWaitSuspendsTheMachine := fun _ _ =>
  ⟨_, rfl, rfl, rfl, rfl, rfl, fun _ => rfl, rfl⟩

theorem toNat_countDown (b : Byte) : (countDown b).toNat = b.toNat - 1 := by
  unfold countDown
  split
  case isTrue h => simp [h]
  case isFalse h =>
    have hone : 1#8 ≤ b := by bv_omega
    exact BitVec.toNat_sub_of_le hone

/-- Settles O47: both timers count down, and a tick is their two writes. -/
theorem tickCountsDownToZero : Obligations.TickCountsDownToZero := fun s =>
  ⟨toNat_countDown s.dt, toNat_countDown s.st, tick_frame s⟩

end Sys2Proof.Machine

/-! PROOFS. Memory as stored and as data (20_memory.md), and the sprite drawn twice (43_display.md). -/

namespace Sys2Proof.Machine

/-! ### Memory -/

/-- Settles O6: with d the distance from a up to a', the address a + d lies in the cell of a'; below the length it holds the d-th byte,
and from the length up the store does not reach it. -/
theorem storedBytesReadBack : Obligations.StoredBytesReadBack := by
  intro s a a' bs hlen
  generalize hd : (a' % Config.memSize + Config.memSize - a % Config.memSize) % Config.memSize = d
  simp only [Config.memSize] at hd hlen
  obtain hlt | hge := Nat.lt_or_ge d bs.length
  · have hcell : (a + d) % Config.memSize = a' % Config.memSize := by simp only [Config.memSize]; omega
    rw [← memRead_mod _ a', ← hcell, memRead_mod, memRead_memWriteList_add bs s a d hlt hlen, List.getElem?_eq_getElem hlt,
      Option.getD_some]
  · rw [List.getElem?_eq_none hge, Option.getD_none]
    refine memRead_memWriteList_of_ne bs s a a' fun k hk => ?_
    simp only [Config.memSize]
    omega

theorem Memory.wfFrom_cons {font : Vector Byte 80} {lo a : Nat} {b : Byte} {rest : List Host.Cell} :
    Memory.wfFrom font lo ((a, b) :: rest) = true ↔
      lo ≤ a ∧ a < Config.memSize ∧ b ≠ Memory.initial font a ∧ Memory.wfFrom font (a + 1) rest = true := by
  simp only [Memory.wfFrom, Bool.and_eq_true, decide_eq_true_eq, and_assoc]

theorem Memory.read_cons_self (font : Vector Byte 80) (a : Nat) (b : Byte) (rest : List Host.Cell) :
    Memory.read font ((a, b) :: rest) a = b := if_pos rfl

theorem Memory.read_cons_of_ne (font : Vector Byte 80) {a a' : Nat} (b : Byte) (rest : List Host.Cell) (h : a' ≠ a) :
    Memory.read font ((a, b) :: rest) a' = Memory.read font rest a' := if_neg h

/-- Below the lowest address it may list, a memory in canonical form reads as the reset image. -/
theorem Memory.read_of_lt {font : Vector Byte 80} (cells : List Host.Cell) : ∀ {lo a : Nat},
    Memory.wfFrom font lo cells = true → a < lo → Memory.read font cells a = Memory.initial font a := by
  induction cells with
  | nil => intros; rfl
  | cons c rest ih =>
    intro lo a hw ha
    obtain ⟨a0, b0⟩ := c
    obtain ⟨hlo, -, -, hrest⟩ := Memory.wfFrom_cons.mp hw
    rw [Memory.read_cons_of_ne font b0 rest (by omega)]
    exact ih hrest (by omega)

/-- A memory that lists nothing up to the address of another's first cell differs from it there: that cell is not the reset image. -/
theorem Memory.read_head_ne {font : Vector Byte 80} {lo a : Nat} {b : Byte} {rest cells : List Host.Cell}
    (hw : Memory.wfFrom font lo ((a, b) :: rest) = true) (hcells : Memory.wfFrom font (a + 1) cells = true) :
    Memory.read font ((a, b) :: rest) a ≠ Memory.read font cells a := by
  obtain ⟨-, -, hb, -⟩ := Memory.wfFrom_cons.mp hw
  rw [Memory.read_cons_self, Memory.read_of_lt cells hcells (Nat.lt_succ_self a)]
  exact hb

/-- The lower bound of a canonical form may be taken up to its first address. -/
theorem Memory.wfFrom_of_le_head {font : Vector Byte 80} {lo lo' a : Nat} {b : Byte} {rest : List Host.Cell}
    (hw : Memory.wfFrom font lo ((a, b) :: rest) = true) (h : lo' ≤ a) : Memory.wfFrom font lo' ((a, b) :: rest) = true := by
  rw [Memory.wfFrom_cons] at hw ⊢
  exact ⟨h, hw.2⟩

/-- Memories in canonical form that read alike start at the same address, hold the same byte there, and the rest of both reads
alike. -/
theorem Memory.eq_of_read_eq {font : Vector Byte 80} (m : List Host.Cell) : ∀ (m' : List Host.Cell) (lo : Nat),
    Memory.wfFrom font lo m = true → Memory.wfFrom font lo m' = true →
    (∀ a, a < Config.memSize → Memory.read font m a = Memory.read font m' a) → m = m' := by
  induction m with
  | nil =>
    intro m' lo _ hw' hread
    cases m' with
    | nil => rfl
    | cons c' rest' => exact absurd (hread _ (Memory.wfFrom_cons.mp hw').2.1).symm (Memory.read_head_ne hw' rfl)
  | cons c rest ih =>
    intro m' lo hw hw' hread
    obtain ⟨a, b⟩ := c
    obtain ⟨-, ha, -, hrest⟩ := Memory.wfFrom_cons.mp hw
    cases m' with
    | nil => exact absurd (hread a ha) (Memory.read_head_ne hw rfl)
    | cons c' rest' =>
      obtain ⟨a', b'⟩ := c'
      obtain ⟨-, ha', -, hrest'⟩ := Memory.wfFrom_cons.mp hw'
      obtain hlt | rfl | hgt := Nat.lt_trichotomy a a'
      · exact absurd (hread a ha) (Memory.read_head_ne hw (Memory.wfFrom_of_le_head hw' hlt))
      · have hbyte : b = b' := by simpa only [Memory.read_cons_self] using hread a ha
        have htail : rest = rest' := ih rest' (a + 1) hrest hrest' fun x hx => by
          by_cases hxa : x = a
          · have hbelow : x < a + 1 := by omega
            rw [Memory.read_of_lt rest hrest hbelow, Memory.read_of_lt rest' hrest' hbelow]
          · simpa only [Memory.read_cons_of_ne font _ _ hxa] using hread x hx
        rw [hbyte, htail]
      · exact absurd (hread a' ha').symm (Memory.read_head_ne hw' (Memory.wfFrom_of_le_head hw hgt))

/-- Settles O7: the canonical form from address 0 up. -/
theorem memoriesThatReadAlikeAreEqual : Obligations.MemoriesThatReadAlikeAreEqual := fun _ m m' hw hw' hread =>
  Memory.eq_of_read_eq m m' 0 hw hw' hread

/-! ### A sprite drawn twice -/

theorem pixel_blit_of_covers {fb : Display} {px py x y : Nat} {rows : List Byte} (hlen : rows.length ≤ 32) (hx : x < 64)
    (hy : y < 32) (h : SpriteCovers px py rows x y) : Display.pixel (blit fb px py rows).1 x y = !Display.pixel fb x y :=
  (pixel_plotRows hx hy rows py (fb, false) hlen).1 h

theorem pixel_blit_of_not_covers {fb : Display} {px py x y : Nat} {rows : List Byte} (hlen : rows.length ≤ 32) (hx : x < 64)
    (hy : y < 32) (h : ¬ SpriteCovers px py rows x y) : Display.pixel (blit fb px py rows).1 x y = Display.pixel fb x y :=
  (pixel_plotRows hx hy rows py (fb, false) hlen).2 h

theorem blit_blit (fb : Display) (px py : Nat) {rows : List Byte} (hlen : rows.length ≤ 32) :
    (blit (blit fb px py rows).1 px py rows).1 = fb := by
  refine Display.ext_pixel fun x y hx hy => ?_
  by_cases h : SpriteCovers px py rows x y
  · rw [pixel_blit_of_covers hlen hx hy h, pixel_blit_of_covers hlen hx hy h, Bool.not_not]
  · rw [pixel_blit_of_not_covers hlen hx hy h, pixel_blit_of_not_covers hlen hx hy h]

theorem byte_ne_zero_iff {b : Byte} : b ≠ 0 ↔ ∃ c, c < 8 ∧ b.getLsbD (7 - c) = true := by
  constructor
  · intro h
    by_contra hnone
    refine h (BitVec.eq_of_getLsbD_eq fun k hk => ?_)
    have hbit := fun hset => hnone ⟨7 - k, by omega, hset⟩
    rw [Nat.sub_sub_self (by omega)] at hbit
    rw [Bool.eq_false_iff.mpr hbit]
    exact (BitVec.getLsbD_zero).symm
  · rintro ⟨c, -, hbit⟩ rfl
    simp at hbit

/-- A sprite covers a pixel of the grid exactly when it has a 1 bit. -/
theorem exists_spriteCovers_iff {px py : Nat} {rows : List Byte} :
    (∃ x y, x < 64 ∧ y < 32 ∧ SpriteCovers px py rows x y) ↔ ∃ row ∈ rows, row ≠ 0 := by
  constructor
  · rintro ⟨x, y, -, -, r, c, hc, ⟨row, hrow, hbit⟩, -⟩
    exact ⟨row, List.mem_of_getElem? hrow, byte_ne_zero_iff.mpr ⟨c, hc, hbit⟩⟩
  · rintro ⟨row, hrow, hne⟩
    obtain ⟨r, hr⟩ := List.getElem?_of_mem hrow
    obtain ⟨c, hc, hbit⟩ := byte_ne_zero_iff.mp hne
    exact ⟨_, _, Nat.mod_lt _ (by decide), Nat.mod_lt _ (by decide), r, c, hc, ⟨row, hr, hbit⟩, rfl, rfl⟩

/-- Settles O44: two flips of a pixel are none; and where no covered pixel was lit, the first draw has lit them all. -/
theorem drawingTwiceRestoresTheDisplay : Obligations.DrawingTwiceRestoresTheDisplay := by
  intro fb px py rows hrows
  have hlen : rows.length ≤ 32 := by omega
  refine ⟨blit_blit fb px py hlen, fun hfirst => ?_⟩
  have hdark : ¬ CoversLit fb px py rows := by rw [← blit_collision_iff fb px py hlen, hfirst]; decide
  rw [blit_collision_iff _ px py hlen, ← exists_spriteCovers_iff (px := px) (py := py)]
  refine exists_congr fun x => exists_congr fun y => and_congr_right fun hx => and_congr_right fun hy =>
    and_iff_left_of_imp fun hcov => ?_
  have hoff : Display.pixel fb x y = false := Bool.eq_false_iff.mpr fun hlit => hdark ⟨x, y, hx, hy, hcov, hlit⟩
  rw [pixel_blit_of_covers hlen hx hy hcov, hoff, Bool.not_false]

end Sys2Proof.Machine

/-! PROOFS. The host events as functions (60_exceptions.md R246 to R249, 70_reset_and_hazards.md R270, R274), and their delivery. -/

namespace Sys2Proof.Machine

/-! ### Keys -/

theorem recordKey_frame (s : State) (k : Nibble) (down : Bool) : UnchangedExcept [.keys] s (s.recordKey k down) :=
  { UnchangedExcept.refl _ s with keys := absurd (by simp) }

theorem recordKey_key (s : State) (k j : Nibble) (down : Bool) :
    (s.recordKey k down).key[j.toNat]'j.isLt = if j = k then down else s.key[j.toNat]'j.isLt := by
  simp only [State.recordKey, Vector.getElem_set, BitVec.toNat_inj, eq_comm (a := k)]

theorem keyNoted_frame (s : State) (k : Nibble) (down : Bool) :
    UnchangedExcept [.keys, .keyEvt] s { s.recordKey k down with keyEvt := ⟨true, k⟩ } :=
  { (recordKey_frame s k down).mono (by simp) with keyEvt := absurd (by simp) }

theorem resolveWait_frame (s : State) (k : Nibble) : UnchangedExcept [.reg s.waitReg, .run, .keyEvt] s (s.resolveWait k) :=
  { (setV_frame s s.waitReg _).mono (by simp) with run := absurd (by simp), keyEvt := absurd (by simp) }

theorem setKey_key (s : State) (k : Nibble) (down : Bool) : (s.setKey k down).key = (s.recordKey k down).key := by
  by_cases hedge : s.keyEdge k down = true
  · by_cases hwait : s.run = .awaitingKey ∧ s.fault = .none
    · rw [setKey_of_wait hedge hwait.1 hwait.2]; rfl
    · rw [setKey_of_edge hedge hwait]
  · rw [setKey_of_not_edge hedge]

/-- The number of a key as a byte. -/
theorem toNat_key (k : Nibble) : (k.setWidth 8).toNat = k.toNat := BitVec.toNat_setWidth_of_le (by decide)

/-- Settles O48: the three equations of `setKey`. -/
theorem setKeyResolvesAWaitOnAnEdge : Obligations.SetKeyResolvesAWaitOnAnEdge := by
  intro s k down edge t
  have hedge_iff : s.keyEdge k down = true ↔ edge := keyEdge_iff
  refine ⟨fun j => ?record, fun hedge hrun hfault => ?resolve, fun hedge hwait => ?note, fun hedge => ?none⟩
  case record =>
    have hkey : t.key = (s.recordKey k down).key := setKey_key s k down
    simp only [hkey, recordKey_key]
  case resolve =>
    have ht : t = _ := setKey_of_wait (hedge_iff.mpr hedge) hrun hfault
    rw [ht]
    exact ⟨(congrArg BitVec.toNat (getV_setV_same s s.waitReg _)).trans (toNat_key k), fun r hr => getV_setV_ne s _ hr, rfl, rfl,
      ((keyNoted_frame s k down).mono (by simp)).trans ((resolveWait_frame _ k).mono (by simp [State.recordKey]))⟩
  case note =>
    have ht : t = _ := setKey_of_edge (hedge_iff.mpr hedge) hwait
    rw [ht]
    exact ⟨rfl, keyNoted_frame s k down⟩
  case none =>
    have ht : t = _ := setKey_of_not_edge (mt hedge_iff.mp hedge)
    rw [ht]
    exact recordKey_frame s k down

/-! ### Pause and run -/

theorem setRun_frame (s : State) (r : RunState) : UnchangedExcept [.run] s { s with run := r } :=
  { UnchangedExcept.refl _ s with run := absurd (by simp) }

theorem pauseEvent_eq (s : State) : s.pauseEvent = { s with run := if s.run = .running then .paused else s.run } := by
  unfold State.pauseEvent
  split <;> rfl

theorem runEvent_eq (s : State) : s.runEvent = { s with run := if s.run = .paused then .running else s.run } := by
  unfold State.runEvent
  split <;> rfl

/-- Settles O49: each event is one write of RUN. -/
theorem pauseAndRunMoveRunOnly : Obligations.PauseAndRunMoveRunOnly := by
  intro s
  rw [pauseEvent_eq, runEvent_eq]
  exact ⟨rfl, setRun_frame s _, rfl, setRun_frame s _⟩

/-! ### Load and reset -/

/-- Settles O51: a program that fits is one run of stores that does not wrap, and a write of PC. -/
theorem loadCopiesTheProgramOrNothing : Obligations.LoadCopiesTheProgramOrNothing := by
  intro s bytes
  refine ⟨fun h => ?fits, fun h => ?refused⟩
  case fits =>
    rw [load_of_le h]
    refine ⟨rfl, rfl, fun k hk => ?copied, fun a ha hout => ?others, ?frame⟩
    case copied => exact memRead_memWriteList_add bytes s 0x200 k hk (by simp only [Config.memSize]; omega)
    case others =>
      refine memRead_memWriteList_of_ne bytes s 0x200 a fun k hk => ?_
      simp only [Config.memSize] at ha ⊢
      omega
    case frame =>
      refine (memWriteList_frame fun k hk => ?_).trans ((setPc_frame _ _).mono (by simp))
      have hcell : (0x200 + k) % Config.memSize = 0x200 + k := Nat.mod_eq_of_lt (by simp only [Config.memSize]; omega)
      rw [hcell]
      exact List.mem_cons_of_mem _ (List.mem_map.mpr ⟨k, List.mem_range.mpr hk, rfl⟩)
  case refused =>
    rw [load_of_gt h]
    exact ⟨rfl, rfl⟩

/-- After reset a byte reads as the reset image of the FONT the state has. -/
theorem memRead_resetEvent (s : State) {a : Nat} (ha : a < Config.memSize) :
    s.resetEvent.memRead a = Memory.initial s.params.font a := by
  show Memory.initial s.params.font (a % Config.memSize) = _
  rw [Nat.mod_eq_of_lt ha]

/-- Settles O52: `reset` writes each piece, and leaves no cell listed. -/
theorem resetRestoresEveryPiece : Obligations.ResetRestoresEveryPiece := by
  refine ⟨rfl, fun s => ⟨fun r => Vector.getElem_replicate r.isLt, rfl, rfl, rfl, fun k hk => Vector.getElem_replicate hk, rfl, rfl,
    pixel_clear, fun k hk => Vector.getElem_replicate hk, rfl, rfl, rfl, rfl, fun a h => ?font, fun a h ha => ?zero, rfl⟩⟩
  case font =>
    have ha : a < Config.memSize := by simp only [Config.memSize]; omega
    exact (memRead_resetEvent s ha).trans (dif_pos h)
  case zero => exact (memRead_resetEvent s ha).trans (dif_neg (Nat.not_lt.mpr h))

/-! ### Delivery -/

theorem step_of_silent {s : State} (hb : s.frameLeft = 0) (hi : s.inbox = []) : step s = .next s := by
  simp only [step, machineStep, hb, hi, if_true]

theorem step_of_event {s : State} {e : HostEvent} {rest : List HostEvent} (hb : s.frameLeft = 0) (hi : s.inbox = e :: rest) :
    step s = deliver e { s with inbox := rest } := by
  simp only [step, machineStep, hb, hi, if_true]

theorem step_of_frame {s : State} (hf : s.frameLeft ≠ 0) : step s = continueFrame s := by
  simp only [step, machineStep, hf, if_false]

/-- Between frames a step takes the oldest event out of the inbox and leaves those behind it. -/
theorem StepEffect.inbox_of_event {s t : State} {e : HostEvent} {rest : List HostEvent} (h : StepEffect s t) (hb : s.frameLeft = 0)
    (hi : s.inbox = e :: rest) : t.inbox = rest := by
  have htail {e' rest'} (hi' : s.inbox = e' :: rest') : rest' = rest := (List.cons.inj (hi'.symm.trans hi)).2
  cases h with
  | silent _ noEvent _ => exact nomatch noEvent.symm.trans hi
  | broken inFrame _ _ | inFrame inFrame _ _ _ _ _ => exact absurd hb inFrame
  | first _ _ head _ _ u _ effect new => rw [new, afterCycle_inbox, effect.inbox, htail head]
  | empty _ _ head _ _ new => rw [new, tick_inbox, htail head]
  | idle _ _ head _ new => rw [new, htail head]
  | single _ _ head _ _ _ effect => rw [effect.inbox, htail head]
  | event _ _ _ head notRun notStep new => rw [(eventEffect_of_deliver new notRun notStep).inbox, htail head]

theorem load_outbox (s : State) (bytes : List Byte) : (s.load bytes).1.outbox = s.outbox := by
  obtain h | h := Nat.lt_or_ge 3584 bytes.length
  · rw [load_of_gt h]
  · rw [load_of_le h]; exact memWriteList_outbox s _ bytes

/-- Settles O60: the step is `deliver` of the oldest event, and each arm of `deliver` is the event's own function. -/
theorem stepDeliversTheNextHostEvent : Obligations.StepDeliversTheNextHostEvent := by
  intro s hb
  refine ⟨step_of_silent hb, ?_⟩
  intro e rest hi u
  obtain ⟨t, ht, heffect⟩ := step_cases s
  refine ⟨⟨t, ht, heffect.inbox_of_event hb hi⟩, ?_⟩
  rw [step_of_event hb hi]
  refine ⟨?reset, ?load, ?runFrame, ?setKey, ?pause, ?run, ?step⟩
  case load =>
    rintro bytes rfl
    show Host.Outcome.next ((u.load bytes).1.emit (.loaded (u.load bytes).2)) = _
    rw [State.emit, load_outbox]
  all_goals intros; subst_vars; rfl

end Sys2Proof.Machine

/-! PROOFS. The frame of 60_exceptions.md R242: one cycle of it, the whole of it in steps, and a run that does not leave its address
(R254). -/

namespace Sys2Proof.Machine

/-! ### The end of a cycle -/

theorem afterCycle_of_inactive {s : State} (h : s.active = false) : s.afterCycle = { s with frameLeft := 0 } := by
  simp [State.afterCycle, h]

theorem afterCycle_of_last {s : State} (h : s.active = true) (hl : s.frameLeft ≤ 1) :
    s.afterCycle = ({ s with frameLeft := 0 } : State).tick := by
  simp [State.afterCycle, h, hl]

theorem afterCycle_of_count {s : State} (h : s.active = true) (hl : 1 < s.frameLeft) :
    s.afterCycle = { s with frameLeft := s.frameLeft - 1 } := by
  simp [State.afterCycle, h, Nat.not_le.mpr hl]

theorem setFrameLeft_frame (s : State) (n : Nat) : UnchangedExcept [.frameLeft] s { s with frameLeft := n } :=
  { UnchangedExcept.refl _ s with frameLeft := absurd (by simp) }

theorem setInbox_frame (s : State) (l : List HostEvent) : UnchangedExcept [.inbox] s { s with inbox := l } :=
  { UnchangedExcept.refl _ s with inbox := absurd (by simp) }

/-- The end of a frame: the count to 0, and a tick. -/
theorem lastCycle_frame (s : State) : UnchangedExcept [.frameLeft, .dt, .st] s ({ s with frameLeft := 0 } : State).tick :=
  ((setFrameLeft_frame s 0).mono (by simp)).trans ((tick_frame _).mono (by simp))

theorem afterCycle_frame (s : State) : UnchangedExcept [.frameLeft, .dt, .st] s s.afterCycle := by
  obtain ⟨_, h⟩ | ⟨_, _, h⟩ | ⟨_, _, h⟩ := afterCycle_cases s <;> rw [h]
  · exact (setFrameLeft_frame s 0).mono (by simp)
  · exact lastCycle_frame s
  · exact (setFrameLeft_frame s _).mono (by simp)

theorem afterCycle_frameLeft_lt {s : State} (h : s.frameLeft ≠ 0) : s.afterCycle.frameLeft < s.frameLeft := by
  obtain ⟨_, h'⟩ | ⟨_, _, h'⟩ | ⟨_, _, h'⟩ := afterCycle_cases s <;> rw [h']
  · exact Nat.pos_of_ne_zero h
  · exact Nat.pos_of_ne_zero h
  · exact Nat.sub_one_lt h

/-- Settles O11: the three equations of `afterCycle`. -/
theorem frameCountsTicksOrBreaksAfterACycle : Obligations.FrameCountsTicksOrBreaksAfterACycle := by
  intro s
  refine ⟨fun h => afterCycle_of_inactive (active_eq_false_iff.mpr h),
    fun hrun hfault hl => afterCycle_of_count (active_iff.mpr ⟨hrun, hfault⟩) hl, fun hrun hfault hl => ?_⟩
  rw [afterCycle_of_last (active_iff.mpr ⟨hrun, hfault⟩) hl]
  exact ⟨rfl, toNat_countDown s.dt, toNat_countDown s.st, lastCycle_frame s⟩

/-! ### One step of a frame -/

theorem continueFrame_of_active {s : State} (h : s.active = true) : continueFrame s = frameCycle s := if_pos h

theorem beginFrame_of_active {s : State} (h : s.active = true) (hn : s.params.cyclesPerFrame ≠ 0) :
    beginFrame s = frameCycle { s with frameLeft := s.params.cyclesPerFrame } := (if_pos h).trans (if_neg hn)

theorem beginFrame_of_empty {s : State} (h : s.active = true) (hn : s.params.cyclesPerFrame = 0) : beginFrame s = .next s.tick :=
  (if_pos h).trans (if_pos hn)

theorem beginFrame_of_inactive {s : State} (h : s.active = false) : beginFrame s = .next s :=
  if_neg (Bool.eq_false_iff.mp h)

theorem runFrame_of_inactive {s : State} (h : s.active = false) : runFrame s = .next s := if_neg (Bool.eq_false_iff.mp h)

theorem frameCycle_of_next {s t : State} (h : instructionCycle s = .next t) : frameCycle s = .next t.afterCycle := by
  simp only [frameCycle, h]

/-- Settles O10: the bytes at PC are the word fetched; both steps are `frameCycle`, of which the cycle is the instruction's `exec`. -/
theorem stepRunsTheDecodedInstruction : Obligations.StepRunsTheDecodedInstruction := by
  intro s i hbytes hactive
  have hd : decodeWord s.fetch = .ok i := decodeWord_eq_ok_iff.mpr (decodeBytes_cons_cons_eq_ok_iff.mp hbytes).1
  refine ⟨fun hf => ?inFrame, fun rest hb hi hn => ?first⟩
  case inFrame =>
    rw [step_of_frame hf, continueFrame_of_active hactive, frameCycle, instructionCycle_of_ok hd]
    rfl
  case first =>
    have hd' : decodeWord ({ s with inbox := rest, frameLeft := s.params.cyclesPerFrame } : State).fetch = .ok i := hd
    rw [step_of_event hb hi, deliver, beginFrame_of_active (s := { s with inbox := rest }) hactive hn, frameCycle,
      instructionCycle_of_ok hd']
    rfl

/-- Settles O14: a machine that is not active begins no frame. -/
theorem suspendedMachineIgnoresFrames : Obligations.SuspendedMachineIgnoresFrames := by
  intro s h
  have hinactive : s.active = false := active_eq_false_iff.mpr (not_and_or.mpr h)
  refine ⟨runFrame_of_inactive hinactive, fun rest hb hi => ?_⟩
  rw [step_of_event hb hi]
  exact beginFrame_of_inactive (s := { s with inbox := rest }) hinactive

/-! ### Runs of the machine -/

/-- `k` steps lead from `s` to `t`. -/
def RunsTo (k : Nat) (s t : State) : Prop := Host.Core.run core k s = .next t

theorem runsTo_zero {s t : State} : RunsTo 0 s t ↔ s = t := ⟨Host.Outcome.next.inj, congrArg Host.Outcome.next⟩

theorem runsTo_succ {s u t : State} {k : Nat} (h : step s = .next u) : RunsTo (k + 1) s t ↔ RunsTo k u t := by
  simp only [RunsTo, Host.Core.run, core, h]

theorem RunsTo.add {k m : Nat} : ∀ {s u t : State}, RunsTo k s u → RunsTo m u t → RunsTo (k + m) s t := by
  induction k with
  | zero =>
    intro s u t h hm
    rw [runsTo_zero.mp h, Nat.zero_add]
    exact hm
  | succ k ih =>
    intro s u t h hm
    obtain ⟨v, hv, -⟩ := step_cases s
    rw [Nat.succ_add, runsTo_succ hv]
    exact ih ((runsTo_succ hv).mp h) hm

/-- While the host is silent, a machine between frames stays as it is. -/
theorem runsTo_of_silent {s : State} (hb : s.frameLeft = 0) (hi : s.inbox = []) (m : Nat) : RunsTo m s s := by
  induction m with
  | zero => exact runsTo_zero.mpr rfl
  | succ m ih => exact (runsTo_succ (step_of_silent hb hi)).mpr ih

/-! ### The whole frame -/

theorem setFrameLeft_self {s : State} {n : Nat} (h : s.frameLeft = n) : ({ s with frameLeft := n } : State) = s := by
  subst h; rfl

theorem runCycles_succ {s t : State} (hactive : s.active = true) (h : instructionCycle s = .next t) (n : Nat) :
    runCycles (n + 1) s = runCycles n t := by
  simp only [runCycles, hactive, h, if_true]

theorem runCycles_of_inactive {s : State} (h : s.active = false) (n : Nat) : runCycles n s = .next s := by
  cases n with
  | zero => rfl
  | succ n => exact if_neg (Bool.eq_false_iff.mp h)

/-- A cycle is the same with n cycles left as between frames, so a cycle of the frame is that cycle and `afterCycle`. -/
theorem frameCycle_withFrameLeft {s t : State} (h : instructionCycle s = .next t) (n : Nat) :
    frameCycle { s with frameLeft := n } = .next ({ t with frameLeft := n } : State).afterCycle :=
  frameCycle_of_next (instructionCycle_withFrameLeft h n)

/-- What `run_frame` makes of the state its loop has left: a tick, unless the batch was broken off. -/
def State.endFrame (s : State) : State := if s.active then s.tick else s

theorem endFrame_of_active {s : State} (h : s.active = true) : s.endFrame = s.tick := if_pos h

theorem endFrame_of_inactive {s : State} (h : s.active = false) : s.endFrame = s := if_neg (Bool.eq_false_iff.mp h)

/-- The cycle that ends the frame, by breaking it off or as the last one, leaves what `run_frame` does. -/
theorem afterCycle_eq_endFrame {s : State} {n : Nat} (hb : s.frameLeft = 0) (h : s.active = false ∨ n ≤ 1) :
    ({ s with frameLeft := n } : State).afterCycle = s.endFrame := by
  cases ha : s.active with
  | false =>
    rw [endFrame_of_inactive ha, afterCycle_of_inactive (s := { s with frameLeft := n }) ha]
    exact setFrameLeft_self hb
  | true =>
    rw [endFrame_of_active ha, afterCycle_of_last (s := { s with frameLeft := n }) ha (h.resolve_left (by simp [ha]))]
    exact congrArg State.tick (setFrameLeft_self hb)

theorem endFrame_keeps (s : State) : s.endFrame.frameLeft = s.frameLeft ∧ s.endFrame.inbox = s.inbox := by
  unfold State.endFrame
  split <;> exact ⟨rfl, rfl⟩

theorem runFrame_of_runCycles {s t : State} (hactive : s.active = true) (h : runCycles s.params.cyclesPerFrame s = .next t) :
    runFrame s = .next t.endFrame := by
  simp only [runFrame, hactive, h, if_true, State.endFrame]

/-- After a cycle of a frame with n cycles to follow, at most n steps are the rest of the loop and the end of the frame: none where the
batch breaks off or n is 0, otherwise the next cycle and what follows it. -/
theorem rest_of_frame (n : Nat) : ∀ u : State, u.frameLeft = 0 →
    ∃ k t, k ≤ n ∧ runCycles n u = .next t ∧ t.frameLeft = 0 ∧ t.inbox = u.inbox ∧
      RunsTo k ({ u with frameLeft := n + 1 } : State).afterCycle t.endFrame := by
  induction n with
  | zero =>
    intro u hb
    exact ⟨0, u, Nat.le_refl 0, rfl, hb, rfl, runsTo_zero.mpr (afterCycle_eq_endFrame hb (.inr (Nat.le_refl 1)))⟩
  | succ n ih =>
    intro u hb
    cases ha : u.active with
    | false =>
      exact ⟨0, u, Nat.zero_le _, runCycles_of_inactive ha _, hb, rfl, runsTo_zero.mpr (afterCycle_eq_endFrame hb (.inl ha))⟩
    | true =>
      obtain ⟨v, hv, heffect⟩ := instructionCycle_cases u
      obtain ⟨k, t, hk, hcycles, hb', hi', hrun⟩ := ih v (heffect.frameLeft.trans hb)
      have hcount : ({ u with frameLeft := n + 1 + 1 } : State).afterCycle = { u with frameLeft := n + 1 } :=
        afterCycle_of_count (s := { u with frameLeft := n + 1 + 1 }) ha (Nat.succ_lt_succ (Nat.succ_pos n))
      have hstep : step { u with frameLeft := n + 1 } = .next ({ v with frameLeft := n + 1 } : State).afterCycle := by
        rw [step_of_frame (s := { u with frameLeft := n + 1 }) (Nat.succ_ne_zero n),
          continueFrame_of_active (s := { u with frameLeft := n + 1 }) ha, frameCycle_withFrameLeft hv (n + 1)]
      refine ⟨k + 1, t, Nat.succ_le_succ hk, (runCycles_succ ha hv n).trans hcycles, hb', hi'.trans heffect.inbox, ?_⟩
      rw [hcount]
      exact (runsTo_succ hstep).mpr hrun

/-- The steps of a frame end between frames, in the state `run_frame` answers, with the events behind it still to be delivered. -/
theorem runFrame_in_steps {s : State} {rest : List HostEvent} (hb : s.frameLeft = 0) (hi : s.inbox = .runFrame :: rest) :
    ∃ k t, 1 ≤ k ∧ k ≤ max 1 s.params.cyclesPerFrame ∧ RunsTo k s t ∧ runFrame { s with inbox := rest } = .next t ∧
      t.frameLeft = 0 ∧ t.inbox = rest := by
  have hstep : step s = beginFrame { s with inbox := rest } := step_of_event hb hi
  have hone {t : State} (h : beginFrame { s with inbox := rest } = .next t) : RunsTo 1 s t :=
    (runsTo_succ (hstep.trans h)).mpr (runsTo_zero.mpr rfl)
  cases ha : ({ s with inbox := rest } : State).active with
  | false =>
    exact ⟨1, _, Nat.le_refl 1, Nat.le_max_left .., hone (beginFrame_of_inactive ha), runFrame_of_inactive ha, hb, rfl⟩
  | true =>
    cases hn : s.params.cyclesPerFrame with
    | zero =>
      refine ⟨1, _, Nat.le_refl 1, Nat.le_max_left .., hone (beginFrame_of_empty ha hn), ?_, hb, rfl⟩
      exact (runFrame_of_runCycles ha (hn ▸ rfl)).trans (congrArg _ (endFrame_of_active ha))
    | succ n =>
      obtain ⟨u, hu, heffect⟩ := instructionCycle_cases { s with inbox := rest }
      obtain ⟨k, t, hk, hcycles, hb', hi', hrun⟩ := rest_of_frame n u (heffect.frameLeft.trans hb)
      have hbegin : beginFrame { s with inbox := rest } = .next ({ u with frameLeft := n + 1 } : State).afterCycle := by
        rw [beginFrame_of_active ha (by simp [hn]), ← frameCycle_withFrameLeft hu (n + 1), ← hn]
      have hframe : runFrame { s with inbox := rest } = .next t.endFrame :=
        runFrame_of_runCycles ha (hn ▸ (runCycles_succ ha hu n).trans hcycles)
      obtain ⟨hleft', hinbox'⟩ := endFrame_keeps t
      exact ⟨k + 1, t.endFrame, Nat.succ_pos k, (Nat.succ_le_succ hk).trans (Nat.le_max_right ..),
        (runsTo_succ (hstep.trans hbegin)).mpr hrun, hframe, hleft'.trans hb', hinbox'.trans (hi'.trans heffect.inbox)⟩

/-- Settles O13: the steps of the frame, and after them, where no event is behind it, the steps of a silent host. -/
theorem stepsOfAFrameAreRunFrame : Obligations.StepsOfAFrameAreRunFrame := by
  intro s rest hb hi
  obtain ⟨k, t, hk, hkn, hrun, hframe, hleft, hinbox⟩ := runFrame_in_steps hb hi
  refine ⟨⟨k, hk, hkn, hrun.trans hframe.symm⟩, ?_⟩
  rintro rfl hn
  rw [Nat.max_eq_right (Nat.one_le_iff_ne_zero.mpr hn)] at hkn
  have hall := hrun.add (runsTo_of_silent hleft hinbox (s.params.cyclesPerFrame - k))
  rw [Nat.add_sub_cancel' hkn] at hall
  exact hall.trans hframe.symm

/-! ### A run idle at its address -/

/-- Where no cell is listed, every address reads as before: an address counts modulo 4096. -/
theorem UnchangedExcept.memRead {w : List Part} {s t : State} (h : UnchangedExcept w s t) (hw : ∀ a, Part.cell a ∉ w) (a : Nat) :
    t.memRead a = s.memRead a := by
  rw [← memRead_mod t, ← memRead_mod s]
  exact h.cell _ (Nat.mod_lt _ (by decide)) (hw _)

/-- The timers, the counter and the inbox have no part in being idle. -/
theorem State.idleAt.of_unchanged {s t : State} {a : Addr12} (hs : s.idleAt a)
    (h : UnchangedExcept [.dt, .st, .frameLeft, .inbox] s t) : t.idleAt a := by
  obtain ⟨hactive, hpc, hjump⟩ := hs
  have hpc' : t.pc = s.pc := h.pc (by simp)
  have hfetch : t.fetch = s.fetch := by simp only [State.fetch, hpc', h.memRead (by simp)]
  refine ⟨?_, hpc'.trans hpc, hfetch ▸ hjump⟩
  rw [State.active, h.run (by simp), h.fault (by simp)]
  exact hactive

/-- The cycle of a jump to itself. -/
theorem State.idleAt.cycle {s : State} {a : Addr12} (h : s.idleAt a) : instructionCycle s = .next s := by
  obtain ⟨-, hpc, hjump⟩ := h
  rw [instructionCycle_of_ok hjump]
  show Host.Outcome.next { s with pc := a.toWord } = _
  rw [← hpc]

/-- A step of an idle run that delivers no event but `run_frame` is one idle cycle, or a tick, or nothing. -/
theorem StepEffect.idle_frame {s t : State} {a : Addr12} (h : StepEffect s t) (hs : s.idleAt a)
    (hevent : s.frameLeft ≠ 0 ∨ s.inbox = [] ∨ s.inbox.head? = some .runFrame) :
    UnchangedExcept [.dt, .st, .frameLeft, .inbox] s t := by
  have hactive := hs.1
  have hinbox (rest : List HostEvent) : UnchangedExcept [.dt, .st, .frameLeft, .inbox] s { s with inbox := rest } :=
    (setInbox_frame s rest).mono (by simp)
  cases h with
  | silent _ _ new => rw [new]; exact .refl _ s
  | broken _ inactive _ => exact absurd hactive (by simp [inactive])
  | inFrame _ _ u cycle _ new =>
    cases hs.cycle.symm.trans cycle
    rw [new]
    exact (afterCycle_frame s).mono (by simp)
  | first rest _ _ _ _ u cycle _ new =>
    have hbegin : UnchangedExcept [.dt, .st, .frameLeft, .inbox] s
        { s with inbox := rest, frameLeft := s.params.cyclesPerFrame } :=
      (hinbox rest).trans ((setFrameLeft_frame _ _).mono (by simp))
    cases (hs.of_unchanged hbegin).cycle.symm.trans cycle
    rw [new]
    exact hbegin.trans ((afterCycle_frame _).mono (by simp))
  | empty rest _ _ _ _ new => rw [new]; exact (hinbox rest).trans ((tick_frame _).mono (by simp))
  | idle _ _ _ inactive _ => exact absurd hactive (by simp [inactive])
  | single _ _ _ paused _ _ _ => exact absurd (active_iff.mp hactive).1 (by simp [paused])
  | event e rest boundary head notRun _ _ => simp [boundary, head, notRun] at hevent

/-- Settles O23: being idle rests on nothing that such a step changes. -/
theorem idleRunStaysIdle : Obligations.IdleRunStaysIdle := by
  intro s a hs hevent
  obtain ⟨t, ht, heffect⟩ := step_cases s
  have hframe := heffect.idle_frame hs hevent
  exact ⟨t, ht, hs.of_unchanged hframe, hframe⟩

end Sys2Proof.Machine

/-! PROOFS. What a step can change, cause by cause: RUN (60_exceptions.md R250), memory (20_memory.md R67), and what a latched fault, a
key wait, a frame in progress and a single step leave alone (R233, R249, R251, 70_reset_and_hazards.md R280). -/

namespace Sys2Proof.Machine

/-! ### What an instruction can change -/

/-- A call changes PC and the stack, or, on the full stack, takes its PC advance back and latches the fault. -/
theorem exec_call_frame {nnn : Addr12} {s t : State} (h : exec (.call nnn) s = .next t) :
    UnchangedExcept [.pc, .stack, .fault] s t := by
  by_cases hs : s.sp.val < 16
  · rw [exec_call_of_lt nnn s hs] at h; cases h
    exact (setPcAndStack_frame s _ _ _).mono (by simp)
  · rw [exec_call_of_full nnn s hs] at h; cases h
    exact (raiseFault_frame s _).mono (by simp)

theorem exec_ret_frame {s t : State} (h : exec .ret s = .next t) : UnchangedExcept [.pc, .stack, .fault] s t := by
  by_cases hs : 0 < s.sp.val
  · rw [exec_ret_of_pos s hs] at h; cases h
    exact (setPcAndStack_frame s _ _ _).mono (by simp)
  · rw [exec_ret_of_empty s hs] at h; cases h
    exact (raiseFault_frame s _).mono (by simp)

/-- Each timer is written by one instruction. -/
theorem exec_timers {i : Instr} {s t : State} (h : exec i s = .next t) :
    ((∀ x, i ≠ .ldDtVx x) → t.dt = s.dt) ∧ ((∀ x, i ≠ .ldStVx x) → t.st = s.st) := by
  cases i
  case ldDtVx x => cases h; exact ⟨fun hne => absurd rfl (hne x), fun _ => rfl⟩
  case ldStVx x => cases h; exact ⟨fun _ => rfl, fun hne => absurd rfl (hne x)⟩
  case call nnn => exact ⟨fun _ => (exec_call_frame h).dt (by simp), fun _ => (exec_call_frame h).st (by simp)⟩
  case ret => exact ⟨fun _ => (exec_ret_frame h).dt (by simp), fun _ => (exec_ret_frame h).st (by simp)⟩
  all_goals cases h; exact ⟨fun _ => by simp, fun _ => by simp⟩

/-- The instruction stores to the cell `a`. -/
def StoresTo (i : Instr) (s : State) (a : Nat) : Prop :=
  (∃ (x : Nibble) (k : Nat), i = .ldBVx x ∧ k < 3 ∧ a = s.iCell k) ∨
  (∃ (x : Nibble) (k : Nat), i = .ldMemVx x ∧ k ≤ x.toNat ∧ a = s.iCell k)

/-- A run of stores from I that changes a byte has an address in its cell. -/
theorem exists_iCell_of_memRead_ne {s : State} {bs : List Byte} {a : Nat} (ha : a < Config.memSize)
    (hne : (s.memWriteList (s.iAddr 0) bs).memRead a ≠ s.memRead a) : ∃ k, k < bs.length ∧ a = s.iCell k := by
  by_contra hnone
  exact hne (memRead_storeFromI_of_ne s bs ha fun k hk heq => hnone ⟨k, hk, heq⟩)

/-- The two stores are the only instructions that change memory. -/
theorem storesTo_of_memRead_ne {i : Instr} {s t : State} {a : Nat} (ha : a < Config.memSize) (h : exec i s = .next t)
    (hne : t.memRead a ≠ s.memRead a) : StoresTo i s a := by
  cases i
  case ldBVx x =>
    cases h
    obtain ⟨k, hk, hcell⟩ := exists_iCell_of_memRead_ne ha hne
    exact .inl ⟨x, k, rfl, hk, hcell⟩
  case ldMemVx x =>
    cases h
    obtain ⟨k, hk, hcell⟩ := exists_iCell_of_memRead_ne ha hne
    rw [length_regsUpTo] at hk
    exact .inr ⟨x, k, rfl, Nat.le_of_lt_succ hk, hcell⟩
  case call nnn => exact absurd ((exec_call_frame h).cell a ha (by simp)) hne
  case ret => exact absurd ((exec_ret_frame h).cell a ha (by simp)) hne
  all_goals
    cases h
    exact absurd (memRead_congr (by simp) (by simp) a) hne

/-! ### What a cycle can change -/

theorem CycleEffect.outbox {s t : State} (h : CycleEffect s t) :
    t.outbox = s.outbox ∨ t.outbox = s.outbox ++ [.unknownOpcode s.fetch s.pc] := by
  cases h with
  | ran _ _ _ keeps _ => exact .inl keeps.outbox
  | passed _ _ logged => exact .inr (logged ▸ rfl)

/-- A cycle leaves RUN, or it was `Fx0A` and the wait has begun. -/
theorem CycleEffect.run {s t : State} (h : CycleEffect s t) :
    t.run = s.run ∨ (t.run = .awaitingKey ∧ ∃ x, decodeWord s.fetch = .ok (.ldVxK x)) := by
  cases h with
  | ran i decoded _ _ control =>
    cases control with
    | plain run _ _ | overflow run _ _ _ _ | underflow run _ _ _ _ => exact .inl run
    | wait x instr run _ _ => exact .inr ⟨run, x, instr ▸ decoded⟩
  | passed _ _ logged => exact .inl (logged ▸ rfl)

theorem CycleEffect.timers {s t : State} (h : CycleEffect s t) :
    ((∀ x, decodeWord s.fetch ≠ .ok (.ldDtVx x)) → t.dt = s.dt) ∧
    ((∀ x, decodeWord s.fetch ≠ .ok (.ldStVx x)) → t.st = s.st) := by
  cases h with
  | ran i decoded ran _ _ =>
    obtain ⟨hdt, hst⟩ := exec_timers ran
    exact ⟨fun hne => hdt fun x hi => hne x (hi ▸ decoded), fun hne => hst fun x hi => hne x (hi ▸ decoded)⟩
  | passed _ _ logged => rw [logged]; exact ⟨fun _ => rfl, fun _ => rfl⟩

/-- A cycle that changes a byte ran one of the two stores, at an address in its cell. -/
theorem CycleEffect.memory {s t : State} {a : Nat} (h : CycleEffect s t) (ha : a < Config.memSize)
    (hne : t.memRead a ≠ s.memRead a) :
    (∃ (x : Nibble) (k : Nat), decodeWord s.fetch = .ok (.ldBVx x) ∧ k < 3 ∧ a = s.iCell k) ∨
    (∃ (x : Nibble) (k : Nat), decodeWord s.fetch = .ok (.ldMemVx x) ∧ k ≤ x.toNat ∧ a = s.iCell k) := by
  cases h with
  | ran i decoded ran _ _ =>
    obtain ⟨x, k, rfl, hk⟩ | ⟨x, k, rfl, hk⟩ := storesTo_of_memRead_ne (s := s.advancePc) ha ran hne
    · exact .inl ⟨x, k, decoded, hk⟩
    · exact .inr ⟨x, k, decoded, hk⟩
  | passed _ _ logged => rw [logged] at hne; exact absurd rfl hne

/-- Settles O50: the cycle of a paused machine leaves RUN paused, or begins a wait. -/
theorem singleStepRunsOneCycleWithoutATick : Obligations.SingleStepRunsOneCycleWithoutATick := by
  intro s
  refine ⟨fun hrun hfault => ?_, stepEvent_of_not_paused⟩
  obtain ⟨t, ht, heffect⟩ := instructionCycle_cases s
  obtain ⟨hdt, hst⟩ := heffect.timers
  exact ⟨t, (stepEvent_of_paused ⟨hrun, hfault⟩).trans ht, ht, heffect.run.imp_left (·.trans hrun), hdt, hst⟩

/-! ### A frame in progress -/

/-- Settles O21: in a frame a step is the break or one cycle and its end, and neither delivers an event. -/
theorem noEventLandsInsideAFrame : Obligations.NoEventLandsInsideAFrame := by
  intro s hf
  obtain ⟨t, ht, heffect⟩ := step_cases s
  refine ⟨t, ht, ?_⟩
  cases heffect with
  | broken _ _ new => rw [new]; exact ⟨rfl, rfl, Nat.pos_of_ne_zero hf, .inl rfl⟩
  | inFrame _ _ u _ effect new =>
    have hend := afterCycle_frame u
    rw [new, hend.inbox (by simp), hend.keys (by simp), hend.outbox (by simp), ← effect.frameLeft]
    exact ⟨effect.inbox, effect.key, afterCycle_frameLeft_lt (effect.frameLeft ▸ hf), effect.outbox⟩
  | silent boundary _ _ | first _ boundary _ _ _ _ _ _ _ | empty _ boundary _ _ _ _ | idle _ boundary _ _ _
  | single _ boundary _ _ _ _ _ | event _ _ boundary _ _ _ _ => exact absurd boundary hf

/-! ### RUN -/

theorem head?_of_eq_cons {s : State} {e : HostEvent} {rest : List HostEvent} (h : s.inbox = e :: rest) : s.inbox.head? = some e := by
  rw [h]; rfl

/-- Settles O18: a cycle changes RUN by `Fx0A`; of the events, each by its own row. -/
theorem runStateFollowsTheTransitionTable : Obligations.RunStateFollowsTheTransitionTable := by
  intro s t hstep hne
  cases stepEffect_of_step hstep with
  | silent _ _ new | broken _ _ new | empty _ _ _ _ _ new | idle _ _ _ _ new => rw [new] at hne; exact absurd rfl hne
  | inFrame _ active u _ effect new =>
    rw [new, (afterCycle_frame u).run (by simp)] at hne ⊢
    obtain ⟨hwait, hinstr⟩ := effect.run.resolve_left hne
    exact .inl ⟨hwait, hinstr, .inl (active_iff.mp active).1⟩
  | first _ _ _ active _ u _ effect new =>
    rw [new, (afterCycle_frame u).run (by simp)] at hne ⊢
    obtain ⟨hwait, hinstr⟩ := effect.run.resolve_left hne
    exact .inl ⟨hwait, hinstr, .inl (active_iff.mp active).1⟩
  | single _ boundary head paused _ _ effect =>
    obtain ⟨hwait, hinstr⟩ := effect.run.resolve_left hne
    exact .inl ⟨hwait, hinstr, .inr ⟨paused, boundary, head?_of_eq_cons head⟩⟩
  | event e _ boundary head notRun notStep new =>
    have hhead := head?_of_eq_cons head
    cases eventEffect_of_deliver new notRun notStep with
    | reset => exact .inr (.inr (.inr (.inr ⟨rfl, boundary, hhead⟩)))
    | loaded bytes _ => exact absurd (memWriteList_run _ _ bytes) hne
    | keyResolved k down edge waiting _ =>
      obtain ⟨rfl, hup⟩ := keyEdge_iff.mp edge
      exact .inr (.inr (.inr (.inl ⟨waiting, rfl, boundary, k, hhead, hup⟩)))
    | paused running => exact .inr (.inl ⟨running, rfl, boundary, hhead⟩)
    | resumed paused => exact .inr (.inr (.inl ⟨paused, rfl, boundary, hhead⟩))
    | refused _ | keyNoted _ _ _ _ | keyRecorded _ _ _ | ignored _ _ => exact absurd rfl hne

/-! ### Memory -/

/-- Settles O19: a cycle changes a byte by a store; of the events, only `load` and `reset` write memory. -/
theorem memoryChangesOnlyByStoresLoadAndReset : Obligations.MemoryChangesOnlyByStoresLoadAndReset := by
  intro s t a ha hstep hne
  cases stepEffect_of_step hstep with
  | silent _ _ new | broken _ _ new | empty _ _ _ _ _ new | idle _ _ _ _ new => rw [new] at hne; exact absurd rfl hne
  | inFrame _ _ u _ effect new =>
    rw [new, (afterCycle_frame u).cell a ha (by simp)] at hne
    exact (effect.memory ha hne).imp_right .inl
  | first _ _ _ _ _ u _ effect new =>
    rw [new, (afterCycle_frame u).cell a ha (by simp)] at hne
    exact (effect.memory ha hne).imp_right .inl
  | single _ _ _ _ _ _ effect => exact (effect.memory ha hne).imp_right .inl
  | event e rest boundary head notRun notStep new =>
    have hhead := head?_of_eq_cons head
    cases eventEffect_of_deliver new notRun notStep with
    | reset => exact .inr (.inr (.inr ⟨boundary, hhead⟩))
    | loaded bytes fits =>
      have hcovered : 0x200 ≤ a ∧ a < 0x200 + bytes.length := by
        by_contra hout
        refine hne (memRead_memWriteList_of_ne bytes { s with inbox := rest } 0x200 a fun k hk => ?_)
        simp only [Config.memSize] at ha ⊢
        omega
      exact .inr (.inr (.inl ⟨boundary, bytes, hhead, fits, hcovered⟩))
    | refused _ | keyResolved _ _ _ _ _ | keyNoted _ _ _ _ | keyRecorded _ _ _ | paused _ | resumed _ | ignored _ _ =>
      exact absurd rfl hne

/-! ### Under a fault -/

/-- Settles O17: no cycle runs; the other events but `load` and `reset` write no more than the keypad, KEYEVT and RUN. -/
theorem faultStopsEverythingUntilReset : Obligations.FaultStopsEverythingUntilReset := by
  intro s hfault
  obtain ⟨t, ht, heffect⟩ := step_cases s
  refine ⟨t, ht, ?_⟩
  have hinactive : ¬ s.active = true := fun h => hfault (active_iff.mp h).2
  have hinbox (rest : List HostEvent) : UnchangedExcept [.keys, .keyEvt, .run, .frameLeft, .inbox] s { s with inbox := rest } :=
    (setInbox_frame s rest).mono (by simp)
  cases heffect with
  | silent _ _ new => rw [new]; exact .inr (.inr (.refl _ s))
  | broken _ _ new => rw [new]; exact .inr (.inr ((setFrameLeft_frame s 0).mono (by simp)))
  | inFrame _ active _ _ _ _ | first _ _ _ active _ _ _ _ _ | empty _ _ _ active _ _ => exact absurd active hinactive
  | idle rest _ _ _ new => rw [new]; exact .inr (.inr (hinbox rest))
  | single _ _ _ _ noFault _ _ => exact absurd noFault hfault
  | event e rest boundary head notRun notStep new =>
    have hhead := head?_of_eq_cons head
    cases eventEffect_of_deliver new notRun notStep with
    | reset => exact .inl ⟨boundary, hhead, rfl⟩
    | loaded bytes _ => exact .inr (.inl ⟨memWriteList_fault _ _ bytes, boundary, bytes, hhead⟩)
    | refused bytes => exact .inr (.inl ⟨rfl, boundary, bytes, hhead⟩)
    | keyResolved _ _ _ _ noFault => exact absurd noFault hfault
    | keyNoted k down _ _ => exact .inr (.inr ((hinbox rest).trans ((keyNoted_frame _ k down).mono (by simp))))
    | keyRecorded k down _ => exact .inr (.inr ((hinbox rest).trans ((recordKey_frame _ k down).mono (by simp))))
    | paused _ | resumed _ => exact .inr (.inr ((hinbox rest).trans ((setRun_frame _ _).mono (by simp))))
    | ignored _ _ => exact .inr (.inr (hinbox rest))

/-! ### In a key wait -/

/-- Recording a key that is no press of a key that is up puts no key down. -/
theorem key_of_recordKey {s : State} {k : Nibble} {down : Bool} (hedge : ¬ s.keyEdge k down = true) {j : Nat} (hj : j < 16)
    (h : (s.recordKey k down).key[j] = true) : s.key[j] = true := by
  simp only [State.recordKey, Vector.getElem_set] at h
  by_cases hk : k.toNat = j
  · subst hk
    rw [if_pos rfl] at h
    by_contra hup
    exact hedge (keyEdge_iff.mpr ⟨h, Bool.eq_false_iff.mpr hup⟩)
  · rwa [if_neg hk] at h

/-- Settles O22: no cycle runs, and of the events left only `set_key` changes anything, the keypad, where it is no edge. -/
theorem waitingChangesNothingWithoutAnEdge : Obligations.WaitingChangesNothingWithoutAnEdge := by
  intro s hrun hfault hreset hload hpress
  obtain ⟨t, ht, heffect⟩ := step_cases s
  refine ⟨t, ht, ?_⟩
  have hinactive : ¬ s.active = true := fun h => by simp [(active_iff.mp h).1] at hrun
  have hinbox (rest : List HostEvent) : UnchangedExcept [.keys, .inbox, .frameLeft] s { s with inbox := rest } :=
    (setInbox_frame s rest).mono (by simp)
  cases heffect with
  | silent _ _ new => rw [new]; exact ⟨fun _ _ h => h, .refl _ s⟩
  | broken _ _ new => rw [new]; exact ⟨fun _ _ h => h, (setFrameLeft_frame s 0).mono (by simp)⟩
  | inFrame _ active _ _ _ _ | first _ _ _ active _ _ _ _ _ | empty _ _ _ active _ _ => exact absurd active hinactive
  | idle rest _ _ _ new => rw [new]; exact ⟨fun _ _ h => h, hinbox rest⟩
  | single _ _ _ paused _ _ _ => exact nomatch hrun.symm.trans paused
  | event e rest _ head notRun notStep new =>
    have hhead := head?_of_eq_cons head
    have hno_edge {k : Nibble} {down : Bool} (he : e = .setKey k down) : ¬ s.keyEdge k down = true := fun hedge => by
      obtain ⟨rfl, hup⟩ := keyEdge_iff.mp hedge
      exact Bool.false_ne_true (hup.symm.trans (hpress k (he ▸ hhead)))
    cases eventEffect_of_deliver new notRun notStep with
    | reset => exact absurd hhead hreset
    | loaded bytes _ | refused bytes => exact absurd hhead (hload bytes)
    | keyResolved _ _ edge _ _ | keyNoted _ _ edge _ => exact absurd edge (hno_edge rfl)
    | keyRecorded k down noEdge =>
      exact ⟨fun _ hj h => key_of_recordKey noEdge hj h, (hinbox rest).trans ((recordKey_frame _ k down).mono (by simp))⟩
    | paused running => exact nomatch hrun.symm.trans running
    | resumed paused => exact nomatch hrun.symm.trans paused
    | ignored _ _ => exact ⟨fun _ _ h => h, hinbox rest⟩

end Sys2Proof.Machine
